-- ==== Sys2Proof/Word.lean ====
section
/-! DEFINITION. What a cell holds, the two parameter modes, and a parameter of an instruction.

A cell, a raw parameter, an operand, a result, an input and an output are all integers of ℤ, unbounded and signed
(spec/00_scope.md R5, spec/20_memory.md R27; the domain is the spec's decision D1, log entry 10). The machine has no bits,
bytes or registers (10_state.md R10, 20_memory.md R28), so no type here is a bit vector: every field is a decimal digit. -/
namespace Sys2Proof

/-- The two parameter modes (30_encoding.md R46): digit 0 is `position`, "operand is an address to dereference"; digit 1 is
`immediate`, "operand is the value itself". No other mode exists. -/
inductive Mode where
  | position
  | immediate
  deriving DecidableEq, Repr

/-- A parameter of an instruction as latched before it executes: its mode and its raw integer (40_execution_cycle.md R64, R65;
the source's "parameter descriptor"). -/
structure Param where
  mode : Mode
  raw  : Int
  deriving DecidableEq, Repr

end Sys2Proof
end

