-- ==== Sys2Proof/Config.lean ====
section
/-! DEFINITION. The configuration of a machine: the operations a table can bind an opcode to, and the loader's open parameter.

`OPTABLE` (10_state.md R21, R22) maps an integer opcode to an operation. An operation is one of the nine default ones or one
the host supplies. A host-supplied operation is plain data here: an arity and a program over the primitives of
46_custom_operations.md R92 (log entry 7), deterministic as R91 asks. That it terminates, which R91 asks too, is a property of
the program and no part of its form (log entry 14). -/
namespace Sys2Proof

/-- The nine default operations (10_state.md R21; "add, multiply, input, output, jump-if-true, jump-if-false, less-than,
equals, halt", 00_scope.md R1). -/
inductive OpName where
  | add | mul | input | output | jt | jf | lt | eq | hlt
  deriving DecidableEq, Repr

/-- A value a host-supplied behaviour computes from what it may see (46_custom_operations.md R91: "the latched fields of the
instruction (`pc`, `word`, `raw[p]`, `mode[p]` for p < arity) and whatever the primitives return"). A variable holds what a
primitive returned; one not yet set reads 0. -/
inductive Expr where
  | const (k : Int)
  | var (x : Nat)
  | pc
  | word
  | raw (p : Nat)
  | immediate (p : Nat)      -- 1 when `mode[p]` is immediate, else 0
  | add (d e : Expr)
  | sub (d e : Expr)
  | mul (d e : Expr)
  | lt (d e : Expr)          -- 1 or 0
  | eq (d e : Expr)          -- 1 or 0
  deriving DecidableEq, Repr

/-- The signal a host-supplied behaviour returns, its jump target still an expression (46_custom_operations.md R91). -/
inductive SignalExpr where
  | advance
  | jump (target : Expr)
  | halt
  | suspend
  deriving DecidableEq, Repr

/-- The body of a host-supplied behaviour: the primitives of 46_custom_operations.md R92, one constructor each, with
sequence, choice and two loops: one whose count is fixed when it starts, and one that tests its condition each time. -/
inductive Cmd where
  | skip
  | seq (c d : Cmd)
  | assign (x : Nat) (e : Expr)
  | value (x p : Nat)                  -- x <- Value(p)
  | writeParam (p : Nat) (e : Expr)    -- WriteParam(p, e)
  | memRead (x : Nat) (addr : Expr)    -- x <- MemRead(addr, 1)
  | memWrite (addr e : Expr)           -- MemWrite(addr, 1, e)
  | inputReady (x : Nat)               -- x <- 1 if InputReady() else 0
  | input (x : Nat)                    -- x <- Input()
  | output (e : Expr)                  -- Output(e)
  | ite (e : Expr) (c d : Cmd)         -- c when e ≠ 0, else d
  | loop (e : Expr) (c : Cmd)          -- c as many times as e said at the start (none when e ≤ 0)
  | whileDo (e : Expr) (c : Cmd)       -- c again and again, as long as e ≠ 0 before it
  | ret (sig : SignalExpr)             -- end the behaviour with this signal
  deriving DecidableEq, Repr

/-- A host-supplied operation (46_custom_operations.md R91): its arity, its body, and the signal it returns when the body
runs to its end, so that every run that does not fault ends with exactly one signal. -/
structure HostOp where
  arity : Nat
  body  : Cmd
  final : SignalExpr
  deriving DecidableEq, Repr

/-- What a table binds an opcode to (10_state.md R21, R22). -/
inductive Operation where
  | default (op : OpName)
  | hosted (op : HostOp)
  deriving DecidableEq, Repr

/-- `OPTABLE`: a finite map from integer opcode to operation, listed by rising opcode (10_state.md R21, R22). -/
abbrev OpTable := List (Int × Operation)

/-- The open parameter `TEXT_TRAILING_WS` at its default (00_scope.md R5, 70_reset_and_hazards.md R122): white space in a
program text is malformed. The loader takes it as an argument. -/
def Config.textTrailingWs : Bool := false

end Sys2Proof
end

