-- ==== Sys2Proof/Syntax.lean ====
section
/-! DEFINITION. The instructions: one constructor per row of spec/opcode_table.json.

A parameter is listed in position order a, b, c (30_encoding.md R42). Every term is an instruction the decoder can answer:
any mode at any position (an immediate write target "decodes without fault", 30_encoding.md R54) and any raw integer (R47). -/
namespace Sys2Proof

/-- The nine default instructions (30_encoding.md R49). -/
inductive Instr where
  | add (a b c : Param)     -- ADD, opcode 1
  | mul (a b c : Param)     -- MUL, opcode 2
  | input (a : Param)       -- IN, opcode 3
  | output (a : Param)      -- OUT, opcode 4
  | jt (a b : Param)        -- JT, opcode 5
  | jf (a b : Param)        -- JF, opcode 6
  | lt (a b c : Param)      -- LT, opcode 7
  | eq (a b c : Param)      -- EQ, opcode 8
  | hlt                     -- HLT, opcode 99
  deriving DecidableEq, Repr

end Sys2Proof
end

