-- ==== Sys2Proof/WellFormed.lean ====
section
/-! DEFINITION. The checks on syntax: on a host-supplied operation, on a table, and on an instruction's write target.

A table is checked when a machine is constructed (10_state.md R22, 70_reset_and_hazards.md R120); an operation that fails its
check is refused there. `Instr.targetOk` is no condition of decoding: it is what 70_reset_and_hazards.md R127 asks of a program. -/
namespace Sys2Proof

/-- Every parameter an expression names is below the arity (46_custom_operations.md R91: "for p < arity"). -/
def Expr.wf (arity : Nat) : Expr → Bool
  | .const _ | .var _ | .pc | .word => true
  | .raw p | .immediate p => decide (p < arity)
  | .add d e | .sub d e | .mul d e | .lt d e | .eq d e => d.wf arity && e.wf arity

/-- The same of a signal. -/
def SignalExpr.wf (arity : Nat) : SignalExpr → Bool
  | .jump e => e.wf arity
  | .advance | .halt | .suspend => true

/-- The same of a body (46_custom_operations.md R92: "`Value(p)`, p < arity", "`WriteParam(p, v)`, p < arity"). -/
def Cmd.wf (arity : Nat) : Cmd → Bool
  | .skip | .inputReady _ | .input _ => true
  | .seq c d => c.wf arity && d.wf arity
  | .assign _ e | .memRead _ e | .output e => e.wf arity
  | .value _ p => decide (p < arity)
  | .writeParam p e => decide (p < arity) && e.wf arity
  | .memWrite d e => d.wf arity && e.wf arity
  | .ite e c d => e.wf arity && c.wf arity && d.wf arity
  | .loop e c | .whileDo e c => e.wf arity && c.wf arity
  | .ret sig => sig.wf arity

/-- The body has no loop but those whose count is fixed when they start, so it ends whatever it is given. -/
def Cmd.whileFree : Cmd → Bool
  | .skip | .assign _ _ | .value _ _ | .writeParam _ _ | .memRead _ _ | .memWrite _ _ => true
  | .inputReady _ | .input _ | .output _ | .ret _ => true
  | .seq c d | .ite _ c d => c.whileFree && d.whileFree
  | .loop _ c => c.whileFree
  | .whileDo _ _ => false

/-- An operation the machine accepts: arity 0 to 3 (10_state.md R22: "An operation whose arity is outside 0 to 3 is refused
at construction"), and no parameter named that it does not have. -/
def HostOp.wf (h : HostOp) : Bool :=
  decide (h.arity ≤ 3) && h.body.wf h.arity && h.final.wf h.arity

/-- A default operation is always accepted. -/
def Operation.wf : Operation → Bool
  | .default _ => true
  | .hosted h => h.wf

/-- The keys of a table rise strictly, so no opcode is bound twice and equal maps are equal lists. -/
def OpTable.rising : OpTable → Bool
  | [] => true
  | [_] => true
  | (k, _) :: (k', op) :: t => decide (k < k') && OpTable.rising ((k', op) :: t)

/-- A table a machine can be constructed with. -/
def OpTable.wf (t : OpTable) : Bool :=
  OpTable.rising t && t.all fun e => e.2.wf

/-- The write target, if any, is in position mode (30_encoding.md R54; 70_reset_and_hazards.md R127: "use `position` mode for
every write target"). -/
def Instr.targetOk : Instr → Bool
  | .add _ _ c | .mul _ _ c | .lt _ _ c | .eq _ _ c => c.mode == .position
  | .input a => a.mode == .position
  | .output _ | .jt _ _ | .jf _ _ | .hlt => true

end Sys2Proof
end

