-- ==== Sys2Proof/Decode.lean ====
section
/-! DEFINITION. The decimal fields of an instruction word, the operation table, the decoder and the encoder.

The decoder takes the table as an argument, because an instruction's length comes from it (30_encoding.md R48), and a list of
cells, of which the first is the instruction word. It is total: it answers what the cells hold, or why they hold nothing. -/
namespace Sys2Proof

/-- `digit(w, k) = floor(w / 10^k) mod 10` (00_scope.md R6), for a word w ≥ 0. -/
def digit (w k : Nat) : Nat := w / 10 ^ k % 10

/-- `opcode = w mod 100` (30_encoding.md R44), for a word w ≥ 0. -/
def opcodeOf (w : Nat) : Nat := w % 100

/-- The arity of a default operation (10_state.md R21). -/
def OpName.arity : OpName → Nat
  | .add | .mul | .lt | .eq => 3
  | .jt | .jf => 2
  | .input | .output => 1
  | .hlt => 0

/-- The opcode of a default operation in the default table (10_state.md R21). -/
def OpName.opcode : OpName → Nat
  | .add => 1
  | .mul => 2
  | .input => 3
  | .output => 4
  | .jt => 5
  | .jf => 6
  | .lt => 7
  | .eq => 8
  | .hlt => 99

/-- The arity of any operation: a host-supplied one carries its own (10_state.md R22: "arity is derived from the supplied
operation itself"). -/
def Operation.arity : Operation → Nat
  | .default op => op.arity
  | .hosted h => h.arity

/-- The default table: nine entries and "no catch-all" (10_state.md R21). -/
def defaultTable : OpTable :=
  [(1, .default .add), (2, .default .mul), (3, .default .input), (4, .default .output), (5, .default .jt),
   (6, .default .jf), (7, .default .lt), (8, .default .eq), (99, .default .hlt)]

/-- `lookup(opcode)` "returns the operation registered for `opcode`" (10_state.md R21). -/
def lookupOp : OpTable → Int → Option Operation
  | [], _ => none
  | (k, op) :: t, o => if k = o then some op else lookupOp t o

/-- "replaces or adds the mapping for that opcode" (10_state.md R22), keeping the keys rising. -/
def overrideOp : OpTable → Int → Operation → OpTable
  | [], o, op => [(o, op)]
  | (k, op') :: t, o, op =>
    if o < k then (o, op) :: (k, op') :: t
    else if o = k then (o, op) :: t
    else (k, op') :: overrideOp t o op

/-- Why a list of cells decodes to nothing, in the terms of the decoder (60_exceptions.md R110, rows 1 to 5). -/
inductive DecodeError where
  | noWord                          -- there is no first cell
  | negativeWord (w : Int)          -- 30_encoding.md R50
  | unboundOpcode (o : Nat)         -- 30_encoding.md R51
  | invalidMode (p d : Nat)         -- 30_encoding.md R52
  | missingParameter (p : Nat)      -- the cell of position p does not exist (40_execution_cycle.md R65)
  deriving DecidableEq, Repr

/-- What cells decode to: a default instruction, or a host-supplied operation with the latched word and parameters. -/
inductive Decoded where
  | instr (i : Instr)
  | hosted (h : HostOp) (word : Int) (params : List Param)
  deriving DecidableEq, Repr

/-- The mode check of 40_execution_cycle.md R64 for `n` positions from position `p` on, lowest first; digits at index
`p + n + 2` and above are not looked at (30_encoding.md R53). -/
def decodeModes (w : Nat) : Nat → Nat → Except DecodeError (List Mode)
  | 0, _ => .ok []
  | n + 1, p =>
    match digit w (p + 2) with
    | 0 => (decodeModes w n (p + 1)).map (Mode.position :: ·)
    | 1 => (decodeModes w n (p + 1)).map (Mode.immediate :: ·)
    | d => .error (.invalidMode p d)

/-- Decode, dispatch and mode check of one word (40_execution_cycle.md R62, R63, R64), in that order. -/
def decodeWord (t : OpTable) (w : Int) : Except DecodeError (Operation × List Mode) :=
  if w < 0 then .error (.negativeWord w)
  else
    match lookupOp t (opcodeOf w.toNat) with
    | none => .error (.unboundOpcode (opcodeOf w.toNat))
    | some op => (decodeModes w.toNat op.arity 0).map fun ms => (op, ms)

/-- The parameter fetch of 40_execution_cycle.md R65: one cell for each mode, position `p` first; the answer also holds the
cells after the last parameter. -/
def takeParams : Nat → List Mode → List Int → Except DecodeError (List Param × List Int)
  | _, [], cells => .ok ([], cells)
  | p, _ :: _, [] => .error (.missingParameter p)
  | p, m :: ms, v :: cells => (takeParams (p + 1) ms cells).map fun r => (⟨m, v⟩ :: r.1, r.2)

/-- The parameter at position `p`. The decoder asks only for positions below the arity, which the list has. -/
def paramAt (ps : List Param) (p : Nat) : Param := ps.getD p ⟨.position, 0⟩

/-- The instruction of a default operation with its parameters. -/
def Instr.ofParams (op : OpName) (ps : List Param) : Instr :=
  match op with
  | .add => .add (paramAt ps 0) (paramAt ps 1) (paramAt ps 2)
  | .mul => .mul (paramAt ps 0) (paramAt ps 1) (paramAt ps 2)
  | .input => .input (paramAt ps 0)
  | .output => .output (paramAt ps 0)
  | .jt => .jt (paramAt ps 0) (paramAt ps 1)
  | .jf => .jf (paramAt ps 0) (paramAt ps 1)
  | .lt => .lt (paramAt ps 0) (paramAt ps 1) (paramAt ps 2)
  | .eq => .eq (paramAt ps 0) (paramAt ps 1) (paramAt ps 2)
  | .hlt => .hlt

/-- What an operation, the latched word and the latched parameters make. -/
def Decoded.ofOperation (op : Operation) (w : Int) (ps : List Param) : Decoded :=
  match op with
  | .default op => .instr (Instr.ofParams op ps)
  | .hosted h => .hosted h w ps

/-- The decoder: the instruction that starts at the first cell, and the cells after it (30_encoding.md R42). The order of the
checks is that of 60_exceptions.md R110. -/
def decodeCells (t : OpTable) : List Int → Except DecodeError (Decoded × List Int)
  | [] => .error .noWord
  | w :: cells =>
    match decodeWord t w with
    | .error e => .error e
    | .ok (op, ms) => (takeParams 0 ms cells).map fun r => (Decoded.ofOperation op w r.1, r.2)

/-- The default operation an instruction is of. -/
def Instr.op : Instr → OpName
  | .add _ _ _ => .add
  | .mul _ _ _ => .mul
  | .input _ => .input
  | .output _ => .output
  | .jt _ _ => .jt
  | .jf _ _ => .jf
  | .lt _ _ _ => .lt
  | .eq _ _ _ => .eq
  | .hlt => .hlt

/-- The parameters of an instruction in position order. -/
def Instr.params : Instr → List Param
  | .add a b c | .mul a b c | .lt a b c | .eq a b c => [a, b, c]
  | .jt a b | .jf a b => [a, b]
  | .input a | .output a => [a]
  | .hlt => []

/-- The digit of a mode (30_encoding.md R46). -/
def Mode.digit : Mode → Nat
  | .position => 0
  | .immediate => 1

/-- The mode digits of a list of parameters as a number, position 0 in the units: `mode[0] + 10*mode[1] + 100*mode[2]`. -/
def modeDigits : List Param → Nat
  | [] => 0
  | a :: ps => a.mode.digit + 10 * modeDigits ps

/-- The canonical word (30_encoding.md R43): `opcode + 100*mode[0] + 1000*mode[1] + 10000*mode[2]`. -/
def Instr.word (i : Instr) : Nat := i.op.opcode + 100 * modeDigits i.params

/-- The encoder: the canonical word, then the raw parameters in position order (30_encoding.md R42, R43). -/
def encode (i : Instr) : List Int := (i.word : Int) :: i.params.map Param.raw

/-- The cells of an opcode-table row's instruction: the number `w` in the instruction word's cell and zeros in the three cells
after it. A cell has no width, so the number of bits the table gives plays no part (log entry 9). -/
def tableCells (w : Nat) : List Int := [(w : Int), 0, 0, 0]

/-- The instruction the decoder reads from those cells under the default table. -/
def decodeTableWord (_nbits w : Nat) : Option Instr :=
  match decodeCells defaultTable (tableCells w) with
  | .ok (.instr i, _) => some i
  | .ok (.hosted _ _ _, _) => none
  | .error _ => none

end Sys2Proof
end

