-- ==== Sys2Proof/Machine/State.lean ====
section
/-! DEFINITION. The state of one machine as plain data, its fault kinds, its refusals, and the state after reset. -/
namespace Sys2Proof.Machine

/-- The execution state (10_state.md R14): four symbolic values. -/
inductive RunState where
  | uninitialized
  | running
  | halted
  | suspended
  deriving DecidableEq, Repr

/-- Which use of an address is out of bounds (60_exceptions.md R102). -/
inductive AccessTag where
  | fetch
  | parameter
  | read
  | write
  deriving DecidableEq, Repr

/-- The fault kinds with their info (60_exceptions.md R100). A raise puts one into the latch `State.fault` and the step answers
a NEXT state (R108, log entry 1): no step answers `Outcome.fault`. All are safe: a faulted machine never steps again. -/
inductive Fault where
  /-- Raised by decode with the word when it is negative, and by dispatch with the opcode when the table does not bind it
  (60_exceptions.md R101). Safe. -/
  | unknownOpcode (info : Int)
  /-- Raised by fetch, parameter fetch, MemRead and MemWrite with the address outside 0 to N-1 (60_exceptions.md R102). Safe. -/
  | outOfBounds (addr : Int) (tag : AccessTag)
  /-- Raised by WriteParam with the position and the raw parameter when the mode is immediate (60_exceptions.md R103). Safe. -/
  | invalidWriteTarget (p : Nat) (raw : Int)
  /-- Raised by the mode check with the position and the digit 2 to 9 (60_exceptions.md R104). Safe. -/
  | invalidMode (p d : Nat)
  /-- Raised by the program-text loader with the token's index, toward the host; never by a step and never latched
  (60_exceptions.md R105). Safe. -/
  | malformedProgram (token : Nat)
  deriving DecidableEq, Repr

/-- Why the model, not the machine, gives no answer. -/
inductive Refusal where
  /-- Answered only by an arm of `exec` whose instruction has no meaning yet; no arm does so now. Safe. -/
  | notModelled (mnemonic : String)
  /-- Answered by `State.construct` for an override whose operation is not well-formed (10_state.md R22, arity outside 0 to 3;
  46_custom_operations.md R92, a parameter it does not have), with its opcode; no machine is built. Safe. -/
  | operationRefused (opcode : Int)
  /-- Answered by `step` when dispatch meets a host-supplied operation that is not well-formed, which no constructed
  machine's table holds (46_custom_operations.md R99, log entry 8). Safe. -/
  | illFormedOperation
  /-- Answered by `step` when the behaviour of a host-supplied operation never ends where it stands: R91 of
  46_custom_operations.md admits only a terminating one, so the spec gives such a step no effect (log entry 14). Safe. -/
  | endlessBehaviour
  deriving DecidableEq, Repr

/-- A fault record `(kind, pc_at_fault, info)` (10_state.md R16, 60_exceptions.md R100); `kind` carries its info. -/
structure FaultRecord where
  kind      : Fault
  pcAtFault : Int
  deriving DecidableEq, Repr

/-- The complete state of one machine (10_state.md R9) with its operation table (R19, log entry 6). N is `tape.length`. -/
structure State where
  tape     : List Int
  pc       : Int
  runState : RunState
  fault    : Option FaultRecord
  inQ      : List Int
  outLog   : List Int
  optable  : OpTable
  deriving DecidableEq, Repr

/-- The machine right after reset (10_state.md R20) with the empty image and no overrides (log entry 4): the image is the
host's, and `State.construct` resets a machine with any image and any overrides. -/
def State.reset : State where
  tape := []
  pc := 0
  runState := .uninitialized
  fault := none
  inQ := []
  outLog := []
  optable := defaultTable

end Sys2Proof.Machine
end

