-- ==== Sys2Proof/Machine/Ops.lean ====
section
/-! DEFINITION. The named operations over the state: the checked accesses to the tape, the channels, raising a fault, the four
signals, and the fetch. Each is the primitive of spec/ it names; a step changes the state through these alone
(40_execution_cycle.md R75). -/
namespace Sys2Proof.Machine

/-- `0 ≤ addr < N` (20_memory.md R26). -/
abbrev State.InBounds (s : State) (addr : Int) : Prop := 0 ≤ addr ∧ addr < (s.tape.length : Int)

/-- The canonical form of a tape of `n` cells: exactly `n` of them, each holding its value. There is no unlisted cell, so
equal memories are equal lists (log entry 5). -/
def Memory.wf (n : Nat) (tape : List Int) : Bool := tape.length == n

/-- `MemRead(addr, 1)` (20_memory.md R31). -/
def State.memRead (s : State) (addr : Int) : Except Fault Int :=
  if 0 ≤ addr then
    match s.tape[addr.toNat]? with
    | some v => .ok v
    | none => .error (.outOfBounds addr .read)
  else .error (.outOfBounds addr .read)

/-- `MemWrite(addr, 1, v)` (20_memory.md R32): the tape never grows (R33). -/
def State.memWrite (s : State) (addr v : Int) : Except Fault State :=
  if s.InBounds addr then .ok { s with tape := s.tape.set addr.toNat v }
  else .error (.outOfBounds addr .write)

/-- `InputReady()` (46_custom_operations.md R92). -/
def State.inputReady (s : State) : Bool := !s.inQ.isEmpty

/-- `Input()` (10_state.md R23): removes the head of `in_q` and returns it; none while it is empty (the step is held). -/
def State.takeInput (s : State) : Option (Int × State) :=
  match s.inQ with
  | [] => none
  | v :: q => some (v, { s with inQ := q })

/-- `Output(v)` (10_state.md R24). -/
def State.emit (s : State) (v : Int) : State := { s with outLog := s.outLog ++ [v] }

/-- `raise K(info)` (60_exceptions.md R108), the one way a fault is taken: the latch records the kind and the pc of the
instruction being executed, and nothing else changes. There is no return from a fault (R111), so no operation beside it. -/
def State.raise (s : State) (f : Fault) : State := { s with fault := some ⟨f, s.pc⟩ }

/-- The four signals that end an operation (40_execution_cycle.md R72). -/
inductive Signal where
  | advance
  | jump (target : Int)
  | halt
  | suspend
  deriving DecidableEq, Repr

/-- Applying the signal of an operation of the given arity (40_execution_cycle.md R68 to R71). -/
def State.applySignal (s : State) (arity : Nat) (sig : Signal) : State :=
  match sig with
  | .advance => { s with pc := s.pc + 1 + arity }
  | .jump t => { s with pc := t }
  | .halt => { s with runState := .halted }
  | .suspend => { s with runState := .suspended }

/-- A step is enabled exactly when `run_state = running` and `fault = none` (40_execution_cycle.md R59). -/
def State.enabled (s : State) : Bool := s.runState == .running && s.fault.isNone

/-- The cells from `pc` to the end of the tape; none when `pc` is outside 0 to N-1 (40_execution_cycle.md R61). -/
def State.fetchCells (s : State) : List Int :=
  if 0 ≤ s.pc then s.tape.drop s.pc.toNat else []

/-- The fault a decoding failure raises when the instruction is at `pc` (60_exceptions.md R110, rows 1 to 5). -/
def faultOfDecode (pc : Int) : DecodeError → Fault
  | .noWord => .outOfBounds pc .fetch
  | .negativeWord w => .unknownOpcode w
  | .unboundOpcode o => .unknownOpcode o
  | .invalidMode p d => .invalidMode p d
  | .missingParameter p => .outOfBounds (pc + 1 + p) .parameter

/-- The part of a step before execution (40_execution_cycle.md R60, lines R61 to R65): what is at `pc`, or the fault. -/
def State.fetch (s : State) : Except Fault Decoded :=
  match decodeCells s.optable s.fetchCells with
  | .ok (d, _) => .ok d
  | .error e => .error (faultOfDecode s.pc e)

/-- The tape with the given cells stored from address `p` on, lengthened where they reach past its end. It is the host's way to
place an instruction, not an access of the machine. -/
def placeCells (tape : List Int) (p : Nat) (cells : List Int) : List Int :=
  tape.take p ++ List.replicate (p - tape.length) 0 ++ cells ++ tape.drop (p + cells.length)

/-- The machine made ready to run the given cells at its very next step: they stand at its pc (at 0 where the pc is negative),
it is running, and no fault is latched (log entry 4). -/
def State.readyToRun (s : State) (cells : List Int) : State :=
  { s with
    tape := placeCells s.tape s.pc.toNat cells
    pc := (s.pc.toNat : Int)
    runState := .running
    fault := none }

end Sys2Proof.Machine
end

