-- ==== Sys2Proof/Machine/Operands.lean ====
section
/-! DEFINITION. The addressing-mode multiplexer: `Value(p)` on the read side and `WriteParam(p, v)` on the write side
(40_execution_cycle.md R66, R67, R133). -/
namespace Sys2Proof.Machine

/-- `Value(p)` for the parameter at p (40_execution_cycle.md R66): exactly one level of indirection. -/
def State.value (s : State) (a : Param) : Except Fault Int :=
  match a.mode with
  | .immediate => .ok a.raw
  | .position => s.memRead a.raw

/-- The address a write through a parameter goes to: the raw parameter itself in position mode, none in immediate mode
(40_execution_cycle.md R67, R133; 90_conflicts.md C3: no extra indirection). -/
def storeAddress (a : Param) : Option Int :=
  match a.mode with
  | .position => some a.raw
  | .immediate => none

/-- `WriteParam(p, v)` for the parameter at position p (40_execution_cycle.md R67): the mode is tested before the bounds. -/
def State.writeParam (s : State) (p : Nat) (a : Param) (v : Int) : Except Fault State :=
  match storeAddress a with
  | none => .error (.invalidWriteTarget p a.raw)
  | some addr => s.memWrite addr v

end Sys2Proof.Machine
end

