-- ==== Sys2Proof/Machine/Arithmetic.lean ====
section
/-! DEFINITION. ADD and MUL (41_arithmetic.md), and the shape they share with the comparisons. -/
namespace Sys2Proof.Machine

/-- Read a, read b, write the result through c, advance: the pseudocode of 41_arithmetic.md R77, R78 and 44_compare.md R86,
R87. Both operands are read before the write; the first fault met is raised and ends the step. -/
def threeOperand (f : Int → Int → Int) (a b c : Param) (s : State) : Host.Outcome State Fault Refusal :=
  match s.value a with
  | .error e => .next (s.raise e)
  | .ok va =>
    match s.value b with
    | .error e => .next (s.raise e)
    | .ok vb =>
      match s.writeParam 2 c (f va vb) with
      | .error e => .next (s.raise e)
      | .ok t => .next (t.applySignal 3 .advance)

/-- ADD (41_arithmetic.md R77): the sum in ℤ, exact. -/
def execAdd (a b c : Param) (s : State) : Host.Outcome State Fault Refusal :=
  threeOperand (fun x y => x + y) a b c s

/-- MUL (41_arithmetic.md R78): the product in ℤ, exact. -/
def execMul (a b c : Param) (s : State) : Host.Outcome State Fault Refusal :=
  threeOperand (fun x y => x * y) a b c s

end Sys2Proof.Machine
end

