-- ==== Sys2Proof/Machine/Flags.lean ====
section
/-! DEFINITION. The machine has no flags (10_state.md R10): a comparison writes its truth value to a cell, and a conditional
jump tests a cell (44_compare.md R88). These are the two functions in place of flag computations. -/
namespace Sys2Proof.Machine

/-- The truth value a comparison writes: exactly 1 or 0 (44_compare.md R86, R87). -/
def truthCell (b : Bool) : Int := if b then 1 else 0

/-- What JT takes for true: any value but 0, negative ones included (43_jumps.md R83). -/
def isTrueCell (v : Int) : Bool := decide (v ≠ 0)

end Sys2Proof.Machine
end

