-- ==== Sys2Proof/Machine/Compare.lean ====
section
/-! DEFINITION. LT and EQ (44_compare.md). -/
namespace Sys2Proof.Machine

/-- LT (44_compare.md R86): signed and strict. -/
def execLt (a b c : Param) (s : State) : Host.Outcome State Fault Refusal :=
  threeOperand (fun x y => truthCell (decide (x < y))) a b c s

/-- EQ (44_compare.md R87): exact at every magnitude. -/
def execEq (a b c : Param) (s : State) : Host.Outcome State Fault Refusal :=
  threeOperand (fun x y => truthCell (decide (x = y))) a b c s

end Sys2Proof.Machine
end

