-- ==== Sys2Proof/Machine/Halt.lean ====
section
/-! DEFINITION. HLT (45_halt.md). -/
namespace Sys2Proof.Machine

/-- HLT (45_halt.md R89): `run_state <- halted`, the pc stays at the HLT. -/
def execHlt (s : State) : Host.Outcome State Fault Refusal :=
  .next (s.applySignal 0 .halt)

end Sys2Proof.Machine
end

