-- ==== Sys2Proof/Machine/InputOutput.lean ====
section
/-! DEFINITION. IN and OUT (42_io.md). -/
namespace Sys2Proof.Machine

/-- IN (42_io.md R80): held, with nothing changed, while `in_q` is empty (log entry 3); else the head is consumed, then written
through a, so that a write that faults has lost it. -/
def execInput (a : Param) (s : State) : Host.Outcome State Fault Refusal :=
  match s.takeInput with
  | none => .next s
  | some (v, u) =>
    match u.writeParam 0 a v with
    | .error e => .next (u.raise e)
    | .ok t => .next (t.applySignal 1 .advance)

/-- OUT (42_io.md R81): a read that faults emits nothing. -/
def execOutput (a : Param) (s : State) : Host.Outcome State Fault Refusal :=
  match s.value a with
  | .error e => .next (s.raise e)
  | .ok va => .next ((s.emit va).applySignal 1 .advance)

end Sys2Proof.Machine
end

