-- ==== Sys2Proof/Machine/Jumps.lean ====
section
/-! DEFINITION. JT and JF (43_jumps.md). -/
namespace Sys2Proof.Machine

/-- Read a, read b, whether or not the jump is taken, then jump to b's value or advance (43_jumps.md R83, R84). -/
def conditionalJump (taken : Int → Bool) (a b : Param) (s : State) : Host.Outcome State Fault Refusal :=
  match s.value a with
  | .error e => .next (s.raise e)
  | .ok va =>
    match s.value b with
    | .error e => .next (s.raise e)
    | .ok vb => .next (s.applySignal 2 (if taken va then .jump vb else .advance))

/-- JT (43_jumps.md R83): taken when the condition is not 0. -/
def execJt (a b : Param) (s : State) : Host.Outcome State Fault Refusal :=
  conditionalJump isTrueCell a b s

/-- JF (43_jumps.md R84): taken when the condition is 0. -/
def execJf (a b : Param) (s : State) : Host.Outcome State Fault Refusal :=
  conditionalJump (fun v => !isTrueCell v) a b s

end Sys2Proof.Machine
end

