-- ==== Sys2Proof/Machine/HostOps.lean ====
section
/-! DEFINITION. What a host-supplied operation does (46_custom_operations.md R91 to R93), the three named ones (R95 to R97),
and the nine default operations written as such programs from their pseudocode. -/
namespace Sys2Proof.Machine

/-- What a behaviour's run sees of its instruction (46_custom_operations.md R91, 40_execution_cycle.md R74). -/
structure Latched where
  pc     : Int
  word   : Int
  params : List Param
  deriving DecidableEq, Repr

/-- The values of a behaviour's variables, the latest first. -/
abbrev Env := List (Nat × Int)

/-- A variable's value; 0 where it was never set. -/
def envGet : Env → Nat → Int
  | [], _ => 0
  | (y, v) :: env, x => if y = x then v else envGet env x

/-- The value of an expression. -/
def evalExpr (l : Latched) (env : Env) : Expr → Int
  | .const k => k
  | .var x => envGet env x
  | .pc => l.pc
  | .word => l.word
  | .raw p => (paramAt l.params p).raw
  | .immediate p => truthCell ((paramAt l.params p).mode == .immediate)
  | .add d e => evalExpr l env d + evalExpr l env e
  | .sub d e => evalExpr l env d - evalExpr l env e
  | .mul d e => evalExpr l env d * evalExpr l env e
  | .lt d e => truthCell (decide (evalExpr l env d < evalExpr l env e))
  | .eq d e => truthCell (decide (evalExpr l env d = evalExpr l env e))

/-- The signal a signal expression gives. -/
def evalSignal (l : Latched) (env : Env) : SignalExpr → Signal
  | .advance => .advance
  | .jump e => .jump (evalExpr l env e)
  | .halt => .halt
  | .suspend => .suspend

/-- How far a behaviour has come: it goes on, it has returned its signal, a primitive raised (what ran before stays done,
60_exceptions.md R109), or it called `Input()` on an empty queue and the step is held (40_execution_cycle.md R59). -/
inductive Progress where
  | going (env : Env) (s : State)
  | done (sig : Signal) (s : State)
  | raised (f : Fault) (s : State)
  | held
  deriving DecidableEq, Repr

/-- What comes next in the behaviour runs only where it goes on. `none` is a behaviour that has not ended within the
iterations allowed. -/
def Progress.andThen (p : Option Progress) (k : Env → State → Option Progress) : Option Progress :=
  match p with
  | some (.going env s) => k env s
  | some (.done sig s) => some (.done sig s)
  | some (.raised f s) => some (.raised f s)
  | some .held => some .held
  | none => none

/-- A body run `n` times, stopping where it ends the behaviour. -/
def iterateBody (f : Env → State → Option Progress) : Nat → Env → State → Option Progress
  | 0, env, s => some (.going env s)
  | n + 1, env, s => Progress.andThen (f env s) fun env' s' => iterateBody f n env' s'

/-- A body run as long as the test holds before it, within `n` iterations. -/
def iterateWhile (test : Env → Bool) (f : Env → State → Option Progress) : Nat → Env → State → Option Progress
  | 0, env, s => if test env then none else some (.going env s)
  | n + 1, env, s =>
    if test env then Progress.andThen (f env s) fun env' s' => iterateWhile test f n env' s'
    else some (.going env s)

/-- A body over the primitives of 46_custom_operations.md R92, from top to bottom, with `n` iterations allowed to each run of a
`whileDo`. The allowance decides only whether there is an answer yet, never which (`runCmd_mono`). -/
def runCmd (n : Nat) (l : Latched) : Cmd → Env → State → Option Progress
  | .skip, env, s => some (.going env s)
  | .seq c d, env, s => Progress.andThen (runCmd n l c env s) fun env' s' => runCmd n l d env' s'
  | .assign x e, env, s => some (.going ((x, evalExpr l env e) :: env) s)
  | .value x p, env, s =>
    match s.value (paramAt l.params p) with
    | .ok v => some (.going ((x, v) :: env) s)
    | .error e => some (.raised e s)
  | .writeParam p e, env, s =>
    match s.writeParam p (paramAt l.params p) (evalExpr l env e) with
    | .ok t => some (.going env t)
    | .error f => some (.raised f s)
  | .memRead x addr, env, s =>
    match s.memRead (evalExpr l env addr) with
    | .ok v => some (.going ((x, v) :: env) s)
    | .error e => some (.raised e s)
  | .memWrite addr e, env, s =>
    match s.memWrite (evalExpr l env addr) (evalExpr l env e) with
    | .ok t => some (.going env t)
    | .error f => some (.raised f s)
  | .inputReady x, env, s => some (.going ((x, truthCell s.inputReady) :: env) s)
  | .input x, env, s =>
    match s.takeInput with
    | some (v, t) => some (.going ((x, v) :: env) t)
    | none => some .held
  | .output e, env, s => some (.going env (s.emit (evalExpr l env e)))
  | .ite e c d, env, s => if isTrueCell (evalExpr l env e) then runCmd n l c env s else runCmd n l d env s
  | .loop e c, env, s => iterateBody (fun env' s' => runCmd n l c env' s') (evalExpr l env e).toNat env s
  | .whileDo e c, env, s =>
    iterateWhile (fun env' => isTrueCell (evalExpr l env' e)) (fun env' s' => runCmd n l c env' s') n env s
  | .ret sig, env, s => some (.done (evalSignal l env sig) s)

/-- The first answer of `f` at an allowance of `n` or more; none where it never answers. It is the least solution of this
equation, so it is a function of `f` and `n` like any other, whether or not there is an answer. -/
def firstAnswer (f : Nat → Option Progress) (n : Nat) : Option Progress :=
  match f n with
  | some p => some p
  | none => firstAnswer f (n + 1)
partial_fixpoint

/-- How a behaviour ends, with no bound on its iterations; none where it never ends (46_custom_operations.md R91). The
allowance 0, which answers for a body without `whileDo`, is tried first. -/
def behave (l : Latched) (c : Cmd) (s : State) : Option Progress :=
  match runCmd 0 l c [] s with
  | some p => some p
  | none => firstAnswer (fun n => runCmd n l c [] s) 1

/-- The behaviour is a terminating one (46_custom_operations.md R91): it ends whatever the latched fields and the state. -/
def Terminates (h : HostOp) : Prop :=
  ∀ (l : Latched) (s : State), l.params.length = h.arity → ∃ p, behave l h.body s = some p

/-- Every operation of a table is one R91 describes. -/
def TableTerminates (t : OpTable) : Prop :=
  ∀ (o : Int) (h : HostOp), lookupOp t o = some (.hosted h) → Terminates h

/-- How the step of a host-supplied operation ends, from the state `s` it started in: its signal is applied with its own arity
(40_execution_cycle.md R68, 46_custom_operations.md R94), or the fault is taken, or the step is held and has changed nothing,
whatever the behaviour did before it called `Input()` (40_execution_cycle.md R59, log entry 3). -/
def finishHosted (h : HostOp) (l : Latched) (s : State) (p : Progress) : State :=
  match p with
  | .going env t => t.applySignal h.arity (evalSignal l env h.final)
  | .done sig t => t.applySignal h.arity sig
  | .raised f t => t.raise f
  | .held => s

/-- The step of a host-supplied operation (40_execution_cycle.md R76). One that no table of a constructed machine holds is
refused (log entry 8), and so is a behaviour that never ends (log entry 14). -/
def execHosted (h : HostOp) (word : Int) (params : List Param) (s : State) : Host.Outcome State Fault Refusal :=
  if h.wf then
    match behave ⟨s.pc, word, params⟩ h.body s with
    | some p => .next (finishHosted h ⟨s.pc, word, params⟩ s p)
    | none => .refused .endlessBehaviour
  else .refused .illFormedOperation

/-- `SETC(k)` (46_custom_operations.md R95). -/
def setc (k : Int) : HostOp := ⟨1, .writeParam 0 (.const k), .advance⟩

/-- `NOP0` (46_custom_operations.md R96). -/
def nop0 : HostOp := ⟨0, .skip, .advance⟩

/-- `INS` (46_custom_operations.md R97): suspends when no input is ready, before any effect. -/
def ins : HostOp :=
  ⟨1,
   .seq (.inputReady 0)
     (.seq (.ite (.var 0) .skip (.ret .suspend))
       (.seq (.input 1) (.writeParam 0 (.var 1)))),
   .advance⟩

/-- Read a into variable 0, read b into variable 1, write the result through c: the body of 41_arithmetic.md R77. -/
def threeOperandBody (e : Expr) : Cmd := .seq (.value 0 0) (.seq (.value 1 1) (.writeParam 2 e))

/-- The pseudocode of each default operation as a program over the primitives (rules R77, R78, R80, R81, R83, R84, R86, R87,
R89 of files 41 to 45). A theorem says that running it and `exec` agree. -/
def pseudocode : OpName → HostOp
  | .add => ⟨3, threeOperandBody (.add (.var 0) (.var 1)), .advance⟩
  | .mul => ⟨3, threeOperandBody (.mul (.var 0) (.var 1)), .advance⟩
  | .input => ⟨1, .seq (.input 0) (.writeParam 0 (.var 0)), .advance⟩
  | .output => ⟨1, .seq (.value 0 0) (.output (.var 0)), .advance⟩
  | .jt => ⟨2, .seq (.value 0 0) (.seq (.value 1 1) (.ite (.var 0) (.ret (.jump (.var 1))) .skip)), .advance⟩
  | .jf => ⟨2, .seq (.value 0 0) (.seq (.value 1 1) (.ite (.var 0) .skip (.ret (.jump (.var 1))))), .advance⟩
  | .lt => ⟨3, threeOperandBody (.lt (.var 0) (.var 1)), .advance⟩
  | .eq => ⟨3, threeOperandBody (.eq (.var 0) (.var 1)), .advance⟩
  | .hlt => ⟨0, .skip, .halt⟩

end Sys2Proof.Machine
end

