-- ==== Sys2Proof/Machine/Step.lean ====
section
/-! DEFINITION. One step of the machine (40_execution_cycle.md R59, R60), and the host's placing of one instruction. -/
namespace Sys2Proof.Machine

/-- One step: nothing where no step is enabled (R59, log entry 2); else fetch, and the fault it raises, or the execution of what
stands at the pc. -/
def step (s : State) : Host.Outcome State Fault Refusal :=
  if s.enabled then
    match s.fetch with
    | .error f => .next (s.raise f)
    | .ok (.instr i) => exec i s
    | .ok (.hosted h word params) => execHosted h word params s
  else .next s

/-- The machine with the cells of an opcode-table row's instruction standing where its very next step fetches them. -/
def State.withFetchWord (s : State) (_nbits w : Nat) : State := s.readyToRun (tableCells w)

end Sys2Proof.Machine
end

