-- ==== Sys2Proof/Machine/ProgramText.lean ====
section
/-! DEFINITION. The program text (70_reset_and_hazards.md R122, R123): the loader's grammar, its error, and the serialisation
of a tape; and the notation of 30_encoding.md R57. A text is a list of characters. -/
namespace Sys2Proof.Machine

/-- The value of a digit character. -/
def digitOfChar (c : Char) : Option Nat :=
  if 48 ≤ c.toNat ∧ c.toNat ≤ 57 then some (c.toNat - 48) else none

/-- The value of `digit*` read most significant first after the value `acc`; none where a character is no digit. -/
def parseDigits : List Char → Nat → Option Nat
  | [], acc => some acc
  | c :: cs, acc =>
    match digitOfChar c with
    | some d => parseDigits cs (10 * acc + d)
    | none => none

/-- `digit+` (R122). -/
def parseNatural : List Char → Option Nat
  | [] => none
  | c :: cs => parseDigits (c :: cs) 0

/-- `integer := "-"? digit+` (R122); leading zeros are allowed and `-0` is 0. -/
def parseInteger : List Char → Option Int
  | '-' :: cs => (parseNatural cs).map fun (n : Nat) => -(n : Int)
  | cs => (parseNatural cs).map fun (n : Nat) => (n : Int)

/-- The tokens between commas; the empty text has one empty token. -/
def splitTokens : List Char → List (List Char)
  | [] => [[]]
  | c :: cs =>
    if c = ',' then [] :: splitTokens cs
    else
      match splitTokens cs with
      | t :: ts => (c :: t) :: ts
      | [] => [[c]]

/-- Space, tab, carriage return, line feed (R122). -/
def isTextSpace (c : Char) : Bool := c == ' ' || c == '\t' || c == '\r' || c == '\n'

/-- White space removed at the two ends. -/
def stripSpace (cs : List Char) : List Char :=
  ((cs.dropWhile isTextSpace).reverse.dropWhile isTextSpace).reverse

/-- The integers of the tokens from index `k` on, or `MalformedProgramError` with the index of the first that is none. -/
def parseTokens : Nat → List (List Char) → Except Fault (List Int)
  | _, [] => .ok []
  | k, t :: ts =>
    match parseInteger t with
    | none => .error (.malformedProgram k)
    | some v => (parseTokens (k + 1) ts).map (v :: ·)

/-- The loader (R122), with the open parameter `TEXT_TRAILING_WS`. -/
def parseProgram (trailingWs : Bool) (text : List Char) : Except Fault (List Int) :=
  if trailingWs then parseTokens 0 ((splitTokens (stripSpace text)).map stripSpace)
  else parseTokens 0 (splitTokens text)

/-- The character of a digit below 10. -/
def charOfDigit (d : Nat) : Char := Char.ofNat (48 + d)

/-- The canonical decimal of `n` before the characters `acc`, given at least as much fuel as it has digits. -/
def naturalDigits : Nat → Nat → List Char → List Char
  | 0, _, acc => acc
  | fuel + 1, n, acc =>
    if n < 10 then charOfDigit n :: acc
    else naturalDigits fuel (n / 10) (charOfDigit (n % 10) :: acc)

/-- An integer in canonical decimal (R123): no leading zeros, `-` for negatives, `0` for zero. -/
def integerText (v : Int) : List Char :=
  if v < 0 then '-' :: naturalDigits (v.natAbs + 1) v.natAbs [] else naturalDigits (v.natAbs + 1) v.natAbs []

/-- The textual serialisation of a tape (R123): its integers joined by single commas. -/
def serialise : List Int → List Char
  | [] => []
  | [v] => integerText v
  | v :: w :: t => integerText v ++ ',' :: serialise (w :: t)

/-- An operand in the notation of 30_encoding.md R57: `[n]` in position mode, `#n` in immediate mode. -/
def operandText (a : Param) : List Char :=
  match a.mode with
  | .position => '[' :: integerText a.raw ++ [']']
  | .immediate => '#' :: integerText a.raw

/-- The mnemonic of an operation (30_encoding.md R57). -/
def mnemonicText : OpName → List Char
  | .add => ['A', 'D', 'D']
  | .mul => ['M', 'U', 'L']
  | .input => ['I', 'N']
  | .output => ['O', 'U', 'T']
  | .jt => ['J', 'T']
  | .jf => ['J', 'F']
  | .lt => ['L', 'T']
  | .eq => ['E', 'Q']
  | .hlt => ['H', 'L', 'T']

/-- Operands separated by commas. -/
def operandsText : List Param → List Char
  | [] => []
  | [a] => ' ' :: operandText a
  | a :: ps => ' ' :: operandText a ++ ',' :: operandsText ps

/-- An instruction in the notation of 30_encoding.md R57; the machine knows nothing of it. -/
def assemblyText (i : Instr) : List Char := mnemonicText i.op ++ operandsText i.params

end Sys2Proof.Machine
end

