-- ==== Sys2Proof/Machine/Transactions.lean ====
section
/-! DEFINITION. The host's transactions (10_state.md R25, 70_reset_and_hazards.md R132): reset, run, input, output and the pure
reads. The host acts between steps only (20_memory.md R41); none of these is part of `step`. -/
namespace Sys2Proof.Machine

/-- The overrides applied in order to a table (10_state.md R22); an operation that is not well-formed is refused. -/
def applyOverrides : OpTable → List (Int × Operation) → Except Refusal OpTable
  | t, [] => .ok t
  | t, (o, op) :: rest =>
    if op.wf then applyOverrides (overrideOp t o op) rest else .error (.operationRefused o)

/-- Reset, `construct(program)` with a table (10_state.md R20, 70_reset_and_hazards.md R120): the image is any finite sequence
of integers (R121). -/
def State.construct (overrides : List (Int × Operation)) (image : List Int) : Except Refusal State :=
  match applyOverrides defaultTable overrides with
  | .error r => .error r
  | .ok t => .ok { State.reset with tape := image, optable := t }

/-- Why no machine is built from a program text (70_reset_and_hazards.md R120). -/
inductive ResetError where
  | table (r : Refusal)       -- an operation refused
  | program (f : Fault)       -- `MalformedProgramError`
  deriving DecidableEq, Repr

/-- Reset from a program text (70_reset_and_hazards.md R120, R122): the table first, then the program. -/
def State.constructText (trailingWs : Bool) (overrides : List (Int × Operation)) (text : List Char) : Except ResetError State :=
  match State.construct overrides [] with
  | .error r => .error (.table r)
  | .ok s =>
    match parseProgram trailingWs text with
    | .error f => .error (.program f)
    | .ok image => .ok { s with tape := image }

/-- What a call of `run` does before its first step (40_execution_cycle.md R73). -/
def State.runEnter (s : State) : State :=
  if s.fault.isSome then s
  else
    match s.runState with
    | .halted => s
    | .running => s
    | .uninitialized => { s with runState := .running }
    | .suspended => { s with runState := .running }

/-- `run` returns to the host (40_execution_cycle.md R73, 70_reset_and_hazards.md R129). -/
def State.hasReturned (s : State) : Bool :=
  s.runState == .halted || s.runState == .suspended || s.fault.isSome

/-- At most `n` steps of the run loop (40_execution_cycle.md R73). The number is the executor's, no state of the machine
(60_exceptions.md R114). -/
def stepsOfRun : Nat → State → Host.Outcome State Fault Refusal
  | 0, s => .next s
  | n + 1, s =>
    if s.hasReturned then .next s
    else
      match step s with
      | .next t => stepsOfRun n t
      | .fault f => .fault f
      | .refused r => .refused r

/-- A call of `run`, watched for at most `n` steps. It has returned exactly when the state answered says so (`hasReturned`). -/
def runFor (n : Nat) (s : State) : Host.Outcome State Fault Refusal := stepsOfRun n s.runEnter

/-- The host appends input (10_state.md R17, R23). -/
def State.supplyInput (s : State) (vs : List Int) : State := { s with inQ := s.inQ ++ vs }

/-- The four state queries (10_state.md R15): pure reads. -/
def State.isUninitialized (s : State) : Bool := s.runState == .uninitialized

/-- See `State.isUninitialized`. -/
def State.isRunning (s : State) : Bool := s.runState == .running

/-- See `State.isUninitialized`. -/
def State.isHalted (s : State) : Bool := s.runState == .halted

/-- See `State.isUninitialized`. -/
def State.isSuspended (s : State) : Bool := s.runState == .suspended

/-- `result()` (10_state.md R25): cell 0; a failure goes to the host and sets no latch. -/
def State.result (s : State) : Except Fault Int := s.memRead 0

/-- `readLast()` (10_state.md R25): cell N-1; on an empty tape it "fails as `result()` does" (log entry 12). -/
def State.readLast (s : State) : Except Fault Int :=
  match s.tape.getLast? with
  | some v => .ok v
  | none => s.result

/-- Tape read-out (10_state.md R25): the whole sequence. -/
def State.readTape (s : State) : List Int := s.tape

/-- Collect output (10_state.md R25). -/
def State.collectOutput (s : State) : List Int := s.outLog

/-- Fault read (10_state.md R25). -/
def State.readFault (s : State) : Option FaultRecord := s.fault

/-- The program has completed (70_reset_and_hazards.md R130). -/
def State.completed (s : State) : Bool := s.runState == .halted && s.fault.isNone

end Sys2Proof.Machine
end

