-- ==== Sys2Proof/Safety.lean ====
section
/-! DEFINITION. What counts as a safe run, and the invariants claims are made of. -/
namespace Sys2Proof.Machine

/-- A latched record tells the truth about the machine it stands in (60_exceptions.md R100 to R104, R108): its pc is the
machine's, and its info is of the kind its rule gives. -/
def FaultRecord.truthful (r : FaultRecord) (s : State) : Bool :=
  r.pcAtFault == s.pc &&
  match r.kind with
  | .unknownOpcode v => decide (v < 0) || (decide (v < 100) && (lookupOp s.optable v).isNone)
  | .outOfBounds a _ => !decide (s.InBounds a)
  | .invalidWriteTarget p _ => decide (p < 3)
  | .invalidMode p d => decide (p < 3) && decide (2 ≤ d) && decide (d ≤ 9)
  | .malformedProgram _ => false

/-- What is true of every machine a host can have: its table is one a construction accepts (10_state.md R22); a latched fault
stands beside `running` and is truthful (60_exceptions.md R108); and nothing has run before the first `run` (10_state.md R20,
70_reset_and_hazards.md R120). -/
structure State.Inv (s : State) : Prop where
  table : OpTable.wf s.optable = true
  latch : ∀ r, s.fault = some r → s.runState = .running ∧ r.truthful s = true
  fresh : s.runState = .uninitialized → s.pc = 0 ∧ s.outLog = []

/-- The machine holds a HLT where it halted, and never suspends: true of a machine with the default table
(93_implementation_defined.md U4; 45_halt.md R89). -/
structure State.DefaultInv (s : State) : Prop where
  table  : s.optable = defaultTable
  noSusp : s.runState ≠ .suspended
  halted : s.runState = .halted → ∃ w : Nat, s.memRead s.pc = .ok (w : Int) ∧ w % 100 = 99

/-- A safe state: no fault is latched (70_reset_and_hazards.md R127, R130). -/
def State.Safe (s : State) : Prop := s.fault = none

end Sys2Proof.Machine
end

