-- ==== Sys2Proof/Certificates/Slice0/Obligations.lean ====
section
/-! DEFINITION. The statements about this machine, in the order of the spec's files. Each docstring names the rule it formalises.
A fault is written out as the record update that 60_exceptions.md R108 describes, so that nothing hides in a name. -/

open Sys2Proof Sys2Proof.Machine

/-! ## Encoding (30_encoding.md) -/

/-- Every default instruction, with any mode and any raw integer at every position, encodes to cells that decode to it, and the
decoder leaves the cells after it alone (30_encoding.md R42, R43, R45, R47, R49). -/
def Obligations.DecodeOfEncodeIsTheInstruction : Prop :=
  ∀ (i : Instr) (rest : List Int), decodeCells defaultTable (encode i ++ rest) = .ok (.instr i, rest)

/-- The converse: cells decode to a default instruction exactly when they are a non-negative word with the instruction's opcode
as its two low digits and its mode digits at index p + 2, followed by its raw parameters (30_encoding.md R42 to R45, R53; that a word with unexamined digits decodes too is the spec's
decision D5, log entry 11). -/
def Obligations.DecodedCellsCarryTheInstruction : Prop :=
  ∀ (cells rest : List Int) (i : Instr),
    decodeCells defaultTable cells = .ok (.instr i, rest) ↔
      ∃ w : Nat, cells = (w : Int) :: (i.params.map Param.raw ++ rest) ∧ w % 100 = i.op.opcode ∧
        ∀ (p : Nat) (a : Param), i.params[p]? = some a → w / 10 ^ (p + 2) % 10 = a.mode.digit

/-- Words written out digit by digit from 30_encoding.md R43 and R49, one or two of each family, decode as the spec says
(R44: 1002 is opcode 2; R53: 199, 1104, 100001; R54: 11101, 103; that the unexamined digits of 199, 20099, 1104 and 100001 are
ignored is the spec's decision D5, log entry 11). -/
def Obligations.WrittenOutWordsDecode : Prop :=
  decodeCells defaultTable [1, 0, 0, 0, 99] = .ok (.instr (.add ⟨.position, 0⟩ ⟨.position, 0⟩ ⟨.position, 0⟩), [99]) ∧
  decodeCells defaultTable [1002, 4, 3, 4, 33] = .ok (.instr (.mul ⟨.position, 4⟩ ⟨.immediate, 3⟩ ⟨.position, 4⟩), [33]) ∧
  decodeCells defaultTable [11101, 2, 3, 0] = .ok (.instr (.add ⟨.immediate, 2⟩ ⟨.immediate, 3⟩ ⟨.immediate, 0⟩), []) ∧
  decodeCells defaultTable [100001, 5, 5, 5] = .ok (.instr (.add ⟨.position, 5⟩ ⟨.position, 5⟩ ⟨.position, 5⟩), []) ∧
  decodeCells defaultTable [103, 3] = .ok (.instr (.input ⟨.immediate, 3⟩), []) ∧
  decodeCells defaultTable [1104, -3, 99] = .ok (.instr (.output ⟨.immediate, -3⟩), [99]) ∧
  decodeCells defaultTable [1105, -1, 4] = .ok (.instr (.jt ⟨.immediate, -1⟩ ⟨.immediate, 4⟩), []) ∧
  decodeCells defaultTable [1006, 7, 4] = .ok (.instr (.jf ⟨.position, 7⟩ ⟨.immediate, 4⟩), []) ∧
  decodeCells defaultTable [107, 2, 5, 5] = .ok (.instr (.lt ⟨.immediate, 2⟩ ⟨.position, 5⟩ ⟨.position, 5⟩), []) ∧
  decodeCells defaultTable [108, 8, 9, 5] = .ok (.instr (.eq ⟨.immediate, 8⟩ ⟨.position, 9⟩ ⟨.position, 5⟩), []) ∧
  decodeCells defaultTable [99] = .ok (.instr .hlt, []) ∧
  decodeCells defaultTable [199] = .ok (.instr .hlt, []) ∧
  decodeCells defaultTable [20099] = .ok (.instr .hlt, [])

/-- Opcode and mode extraction (30_encoding.md R44, R45, R46, R51, R52, 40_execution_cycle.md R64; that no other digit decodes is
the spec's decision D4, log entry 11). A word w ≥ 0 selects by w mod 100, which lies in 0 to 99, under any
table: where the table binds it the decoded operation is the bound one, where not the word decodes to nothing; 1002 selects
opcode 2. Where the word decodes, the mode of each position p below the arity is position when the digit of index p + 2, counted
from the units digit, is 0 and immediate when it is 1; no other digit decodes; a digit the word does not have is 0. -/
def Obligations.WordFieldsAreDecimalDigits : Prop :=
  (∀ w : Nat, opcodeOf w = w % 100 ∧ opcodeOf w ≤ 99) ∧ opcodeOf 1002 = 2 ∧
  (∀ w p : Nat, w < 10 ^ (p + 2) → digit w (p + 2) = 0) ∧
  ∀ (t : OpTable) (w : Nat),
    (lookupOp t ((w % 100 : Nat) : Int) = none → decodeWord t w = .error (.unboundOpcode (w % 100))) ∧
    ∀ op ms, decodeWord t w = .ok (op, ms) →
      lookupOp t ((w % 100 : Nat) : Int) = some op ∧ ms.length = op.arity ∧
      ∀ (p : Nat) (m : Mode), ms[p]? = some m →
        (m = .position ∧ w / 10 ^ (p + 2) % 10 = 0) ∨ (m = .immediate ∧ w / 10 ^ (p + 2) % 10 = 1)

/-- An instruction occupies 1 + arity consecutive cells, arity being that of the operation the table binds to its opcode: the word
first, then the raw parameters in position order; with the default table the lengths are 4, 3, 2 and 1 (30_encoding.md R42). -/
def Obligations.InstructionOccupiesOnePlusArityCells : Prop :=
  (∀ (t : OpTable) (cells rest : List Int) (i : Instr), decodeCells t cells = .ok (.instr i, rest) →
    ∃ w : Int, cells = w :: (i.params.map Param.raw ++ rest) ∧ i.params.length = i.op.arity ∧
      lookupOp t (opcodeOf w.toNat) = some (.default i.op)) ∧
  (∀ (t : OpTable) (cells rest : List Int) (h : HostOp) (w : Int) (ps : List Param),
    decodeCells t cells = .ok (.hosted h w ps, rest) →
      cells = w :: (ps.map Param.raw ++ rest) ∧ ps.length = h.arity ∧ lookupOp t (opcodeOf w.toNat) = some (.hosted h)) ∧
  (∀ i : Instr, (encode i).length = 1 + i.op.arity) ∧
  OpName.add.arity = 3 ∧ OpName.mul.arity = 3 ∧ OpName.lt.arity = 3 ∧ OpName.eq.arity = 3 ∧
  OpName.jt.arity = 2 ∧ OpName.jf.arity = 2 ∧ OpName.input.arity = 1 ∧ OpName.output.arity = 1 ∧ OpName.hlt.arity = 0

/-- Digits that no used position reads change nothing: adding any multiple of the weight of index arity + 2 to a word leaves
what it decodes to as it was, under any table (30_encoding.md R53; the spec's decision D5). -/
def Obligations.UnexaminedDigitsAreIgnored : Prop :=
  ∀ (t : OpTable) (w k : Nat) (op : Operation), lookupOp t ((w % 100 : Nat) : Int) = some op →
    decodeWord t ((w + 10 ^ (op.arity + 2) * k : Nat) : Int) = decodeWord t (w : Int)

/-- Unbound opcodes fault, never act as a no-op (30_encoding.md R51): an enabled machine whose word at the pc has an opcode its
table does not bind takes UnknownOpcodeError(opcode), whatever its other digits; with the default table these are exactly 0
and 9 to 98. -/
def Obligations.UnboundOpcodeFaults : Prop :=
  (∀ o : Nat, o < 100 → (lookupOp defaultTable (o : Int) = none ↔ o = 0 ∨ (9 ≤ o ∧ o ≤ 98))) ∧
  ∀ (s : State) (w : Nat), s.enabled = true → s.memRead s.pc = .ok (w : Int) →
    lookupOp s.optable ((w % 100 : Nat) : Int) = none →
    step s = .next { s with fault := some ⟨.unknownOpcode ((w % 100 : Nat) : Int), s.pc⟩ }

/-! ## The operation table (10_state.md R21, R22) -/

/-- The default table has exactly nine entries and no catch-all (10_state.md R21): each default operation stands at its opcode,
and nothing else is bound. -/
def Obligations.DefaultTableHasExactlyNineEntries : Prop :=
  ∀ (o : Int) (op : Operation), lookupOp defaultTable o = some op ↔
    (o = 1 ∧ op = .default .add) ∨ (o = 2 ∧ op = .default .mul) ∨ (o = 3 ∧ op = .default .input) ∨
    (o = 4 ∧ op = .default .output) ∨ (o = 5 ∧ op = .default .jt) ∨ (o = 6 ∧ op = .default .jf) ∨
    (o = 7 ∧ op = .default .lt) ∨ (o = 8 ∧ op = .default .eq) ∨ (o = 99 ∧ op = .default .hlt)

/-- An override replaces or adds the mapping of its own opcode and no other; under a key outside 0 to 99 it changes the decoding
of no word (10_state.md R22, 46_custom_operations.md R94). -/
def Obligations.OverrideReplacesItsOpcodeOnly : Prop :=
  (∀ (t : OpTable) (o k : Int) (op : Operation),
    lookupOp (overrideOp t o op) k = if k = o then some op else lookupOp t k) ∧
  ∀ (t : OpTable) (o : Int) (op : Operation) (w : Int), (o < 0 ∨ 99 < o) →
    decodeWord (overrideOp t o op) w = decodeWord t w

/-! ## Memory and operands (20_memory.md, 40_execution_cycle.md) -/

/-- The checked read (20_memory.md R31): inside 0 to N-1 the cell's value; outside, negative addresses included, the fault
OutOfBoundsAddressError(addr, read), which OUT reading that address in position mode raises. -/
def Obligations.MemReadIsBoundsChecked : Prop :=
  ∀ (s : State) (addr : Int),
    (∀ (n : Nat) (v : Int), addr = n → s.tape[n]? = some v → s.memRead addr = .ok v) ∧
    ((addr < 0 ∨ (s.tape.length : Int) ≤ addr) →
      s.memRead addr = .error (.outOfBounds addr .read) ∧
      exec (.output ⟨.position, addr⟩) s = .next { s with fault := some ⟨.outOfBounds addr .read, s.pc⟩ })

/-- The checked write (20_memory.md R32): inside 0 to N-1 it sets the cell and leaves every other cell and all other state
unchanged; outside it writes nothing and its fault is OutOfBoundsAddressError(addr, write), which ADD writing there raises; and
Scenario 5 fails with an OutOfBoundsAddressError, of which the address 5 and the tag read, by the order of the checks, are the
spec's decision D6 (log entry 11; 90_conflicts.md C5). -/
def Obligations.MemWriteIsBoundsChecked : Prop :=
  (∀ (s : State) (addr v : Int), 0 ≤ addr → addr < s.tape.length →
    ∃ t, s.memWrite addr v = .ok t ∧ t = { s with tape := t.tape } ∧ t.tape.length = s.tape.length ∧
      t.memRead addr = .ok v ∧ ∀ b, b ≠ addr → t.memRead b = s.memRead b) ∧
  (∀ (s : State) (addr v x y : Int), (addr < 0 ∨ (s.tape.length : Int) ≤ addr) →
    s.memWrite addr v = .error (.outOfBounds addr .write) ∧
    exec (.add ⟨.immediate, x⟩ ⟨.immediate, y⟩ ⟨.position, addr⟩) s =
      .next { s with fault := some ⟨.outOfBounds addr .write, s.pc⟩ }) ∧
  step { State.reset with tape := [1, 5, 6, 7], runState := .running } =
    .next { State.reset with tape := [1, 5, 6, 7], runState := .running, fault := some ⟨.outOfBounds 5 .read, 0⟩ }

/-- Fetch coherence (20_memory.md R39): whatever a machine wrote to a cell is what a fetch with the pc at that cell reads first,
with no intervening action. -/
def Obligations.WriteIsSeenByFetch : Prop :=
  ∀ (s t : State) (addr v : Int), s.memWrite addr v = .ok t →
    ∃ cells, ({ t with pc := addr } : State).fetchCells = v :: cells

/-- The read side of the multiplexer (40_execution_cycle.md R66): an immediate operand is the raw parameter; a position operand
is the cell it names, one level of indirection; outside 0 to N-1 the fault is OutOfBoundsAddressError(raw, read); each parameter
is resolved by its own mode. -/
def Obligations.ValueFollowsTheMode : Prop :=
  ∀ (s : State) (a : Param),
    (a.mode = .immediate → s.value a = .ok a.raw) ∧
    (∀ (n : Nat) (v : Int), a.mode = .position → a.raw = n → s.tape[n]? = some v → s.value a = .ok v) ∧
    (a.mode = .position → (a.raw < 0 ∨ (s.tape.length : Int) ≤ a.raw) → s.value a = .error (.outOfBounds a.raw .read))

/-- The write side of the multiplexer (40_execution_cycle.md R67): an immediate target fails whatever its raw value; a position
target inside 0 to N-1 gets the value in the cell the raw parameter names, with no further indirection; outside, the fault is
OutOfBoundsAddressError(raw, write). -/
def Obligations.WriteParamFollowsTheMode : Prop :=
  ∀ (s : State) (p : Nat) (a : Param) (v : Int),
    (a.mode = .immediate → s.writeParam p a v = .error (.invalidWriteTarget p a.raw)) ∧
    (∀ n : Nat, a.mode = .position → a.raw = n → n < s.tape.length →
      s.writeParam p a v = .ok { s with tape := s.tape.set n v }) ∧
    (a.mode = .position → (a.raw < 0 ∨ (s.tape.length : Int) ≤ a.raw) →
      s.writeParam p a v = .error (.outOfBounds a.raw .write))

/-! ## The step (40_execution_cycle.md) -/

/-- A step is enabled exactly when the machine is running and no fault is latched (40_execution_cycle.md R59); in every other
state it does nothing, and answers the same state (the model's reading, log entry 2); an enabled step whose operation calls
Input() on an empty queue is held and has changed no state, for the default IN and for any host-supplied operation, also one
that did something before that call (the model's reading, log entry 3). -/
def Obligations.StepIsEnabledExactlyWhenRunning : Prop :=
  (∀ s : State, s.enabled = true ↔ s.runState = .running ∧ s.fault = none) ∧
  (∀ s : State, s.enabled = false → step s = .next s) ∧
  (∀ (s : State) (a : Param), s.fetch = .ok (.instr (.input a)) → s.inQ = [] → step s = .next s) ∧
  ∀ (s : State) (h : HostOp) (w : Int) (ps : List Param), h.wf = true → s.fetch = .ok (.hosted h w ps) →
    behave ⟨s.pc, w, ps⟩ h.body s = some .held → step s = .next s

/-- A step runs the decoded instruction (40_execution_cycle.md R60, R76): where the machine is enabled, its pc is in the tape and
the cells from there decode, step is exec of the default instruction, or the step of the host-supplied operation; nothing is
added around it. -/
def Obligations.StepRunsTheDecodedInstruction : Prop :=
  ∀ (s : State) (n : Nat), s.enabled = true → s.pc = n →
    (∀ (i : Instr) (rest : List Int), decodeCells s.optable (s.tape.drop n) = .ok (.instr i, rest) → step s = exec i s) ∧
    (∀ (h : HostOp) (w : Int) (ps : List Param) (rest : List Int),
      decodeCells s.optable (s.tape.drop n) = .ok (.hosted h w ps, rest) → step s = execHosted h w ps s)

/-- The order of the checks before execution (60_exceptions.md R110, rows 1 to 5; the order is the spec's
decision D6, the faults of a negative word and of a mode digit its D3 and D4, log entry 11): of an enabled step,
first the pc's range, then a negative word, then the opcode, then the lowest position with a bad mode digit, then the lowest
position without a cell; each latches its fault and changes nothing else. -/
def Obligations.FetchFaultsComeInOrder : Prop :=
  ∀ s : State, s.enabled = true →
    ((s.pc < 0 ∨ (s.tape.length : Int) ≤ s.pc) →
      step s = .next { s with fault := some ⟨.outOfBounds s.pc .fetch, s.pc⟩ }) ∧
    (∀ w : Int, s.memRead s.pc = .ok w → w < 0 →
      step s = .next { s with fault := some ⟨.unknownOpcode w, s.pc⟩ }) ∧
    (∀ w : Nat, s.memRead s.pc = .ok (w : Int) → lookupOp s.optable ((w % 100 : Nat) : Int) = none →
      step s = .next { s with fault := some ⟨.unknownOpcode ((w % 100 : Nat) : Int), s.pc⟩ }) ∧
    ∀ (w : Nat) (op : Operation), s.memRead s.pc = .ok (w : Int) → lookupOp s.optable ((w % 100 : Nat) : Int) = some op →
      (∀ p : Nat, p < op.arity → 2 ≤ w / 10 ^ (p + 2) % 10 → (∀ q, q < p → w / 10 ^ (q + 2) % 10 < 2) →
        step s = .next { s with fault := some ⟨.invalidMode p (w / 10 ^ (p + 2) % 10), s.pc⟩ }) ∧
      ((∀ q, q < op.arity → w / 10 ^ (q + 2) % 10 < 2) →
        ∀ p : Nat, p < op.arity → s.pc + 1 + p = s.tape.length →
          step s = .next { s with fault := some ⟨.outOfBounds (s.pc + 1 + p) .parameter, s.pc⟩ })

/-- Parameter fetch (40_execution_cycle.md R65): where the word at the pc decodes, the raw parameter of position p is the cell
at pc + 1 + p, for every p below the arity and before the operation starts; where such a cell does not exist the lowest missing
one is the parameter fault. -/
def Obligations.ParametersAreTheCellsAfterTheWord : Prop :=
  ∀ (s : State) (w : Int) (op : Operation) (ms : List Mode), s.memRead s.pc = .ok w →
    decodeWord s.optable w = .ok (op, ms) →
    (s.pc + op.arity < s.tape.length →
      ∃ ps : List Param, s.fetch = .ok (Decoded.ofOperation op w ps) ∧ ps.map Param.mode = ms ∧ ps.length = op.arity ∧
        ∀ (p : Nat) (a : Param), ps[p]? = some a → s.memRead (s.pc + 1 + p) = .ok a.raw) ∧
    ∀ p : Nat, p < op.arity → s.pc + 1 + p = s.tape.length → s.enabled = true →
      step s = .next { s with fault := some ⟨.outOfBounds (s.pc + 1 + p) .parameter, s.pc⟩ }

/-- The state machine of the execution state over a step (40_execution_cycle.md R72; the row of raise is the spec's
decision D7, the pc kept by halt and suspend its D9, log entry 11):
a step leaves the execution state as it was, or takes a running, unfaulted machine to halted or suspended with the pc unchanged;
a fault it latches leaves the execution state and the pc unchanged. -/
def Obligations.StepMovesRunStateOnlyByItsTable : Prop :=
  ∀ s t : State, OpTable.wf s.optable = true → step s = .next t →
    (t.runState = s.runState ∨
      (s.runState = .running ∧ s.fault = none ∧ (t.runState = .halted ∨ t.runState = .suspended) ∧ t.pc = s.pc ∧
        t.fault = none)) ∧
    (t.fault ≠ s.fault → s.runState = .running ∧ s.fault = none ∧ t.runState = .running ∧ t.pc = s.pc)

/-- What the host places for one table word is what the very next step runs (log entries 4 and 9: the placing is the model's own,
no rule of the spec): with the default table, if the word decodes, step runs that instruction. -/
def Obligations.PlacedWordRunsAtTheNextStep : Prop :=
  ∀ (s : State) (nbits w : Nat) (i : Instr), s.optable = defaultTable → decodeTableWord nbits w = some i →
    step (s.withFetchWord nbits w) = exec i (s.withFetchWord nbits w)

/-! ## Arithmetic and comparison (41_arithmetic.md, 44_compare.md) -/

/-- ADD and MUL complete (41_arithmetic.md R77, R78): where both operands resolve and the target is a position-mode cell of the
tape, the exact sum, or product, in ℤ is in the target cell and the pc has advanced by 4. -/
def Obligations.AddAndMulComplete : Prop :=
  ∀ (a b c : Param) (s : State) (va vb : Int), s.value a = .ok va → s.value b = .ok vb →
    c.mode = .position → 0 ≤ c.raw → c.raw < s.tape.length →
    exec (.add a b c) s = .next { s with tape := s.tape.set c.raw.toNat (va + vb), pc := s.pc + 4 } ∧
    exec (.mul a b c) s = .next { s with tape := s.tape.set c.raw.toNat (va * vb), pc := s.pc + 4 }

/-- LT and EQ complete (44_compare.md R86, R87): exactly 1 is in the target cell when the first operand is less, signed and
strict, or when the operands are equal, else exactly 0; the pc has advanced by 4. -/
def Obligations.LtAndEqComplete : Prop :=
  ∀ (a b c : Param) (s : State) (va vb : Int), s.value a = .ok va → s.value b = .ok vb →
    c.mode = .position → 0 ≤ c.raw → c.raw < s.tape.length →
    exec (.lt a b c) s = .next { s with tape := s.tape.set c.raw.toNat (if va < vb then 1 else 0), pc := s.pc + 4 } ∧
    exec (.eq a b c) s = .next { s with tape := s.tape.set c.raw.toNat (if va = vb then 1 else 0), pc := s.pc + 4 }

/-- ADD as 41_arithmetic.md R77 gives it whole: its encoding; the faults of the step before execution first; its four exceptions
in the order they can arise, each leaving the tape, the pc and everything but the latch unchanged; and its result. -/
def Obligations.AddDoesAllItsRuleSays : Prop :=
  ∀ (a b c : Param) (s : State),
    (∀ rest, decodeCells defaultTable
      (((1 + 100 * a.mode.digit + 1000 * b.mode.digit + 10000 * c.mode.digit : Nat) : Int) :: a.raw :: b.raw :: c.raw :: rest)
        = .ok (.instr (.add a b c), rest)) ∧
    (∀ f, s.enabled = true → s.fetch = .error f → step s = .next { s with fault := some ⟨f, s.pc⟩ }) ∧
    (a.mode = .position → ¬ s.InBounds a.raw →
      exec (.add a b c) s = .next { s with fault := some ⟨.outOfBounds a.raw .read, s.pc⟩ }) ∧
    ∀ va, s.value a = .ok va →
      (b.mode = .position → ¬ s.InBounds b.raw →
        exec (.add a b c) s = .next { s with fault := some ⟨.outOfBounds b.raw .read, s.pc⟩ }) ∧
      ∀ vb, s.value b = .ok vb →
        (c.mode = .immediate →
          exec (.add a b c) s = .next { s with fault := some ⟨.invalidWriteTarget 2 c.raw, s.pc⟩ }) ∧
        (c.mode = .position → ¬ s.InBounds c.raw →
          exec (.add a b c) s = .next { s with fault := some ⟨.outOfBounds c.raw .write, s.pc⟩ }) ∧
        (c.mode = .position → s.InBounds c.raw →
          exec (.add a b c) s = .next { s with tape := s.tape.set c.raw.toNat (va + vb), pc := s.pc + 4 })

/-- MUL as 41_arithmetic.md R78 gives it whole: encoding, the four exceptions of ADD in the same order, result. -/
def Obligations.MulDoesAllItsRuleSays : Prop :=
  ∀ (a b c : Param) (s : State),
    (∀ rest, decodeCells defaultTable
      (((2 + 100 * a.mode.digit + 1000 * b.mode.digit + 10000 * c.mode.digit : Nat) : Int) :: a.raw :: b.raw :: c.raw :: rest)
        = .ok (.instr (.mul a b c), rest)) ∧
    (a.mode = .position → ¬ s.InBounds a.raw →
      exec (.mul a b c) s = .next { s with fault := some ⟨.outOfBounds a.raw .read, s.pc⟩ }) ∧
    ∀ va, s.value a = .ok va →
      (b.mode = .position → ¬ s.InBounds b.raw →
        exec (.mul a b c) s = .next { s with fault := some ⟨.outOfBounds b.raw .read, s.pc⟩ }) ∧
      ∀ vb, s.value b = .ok vb →
        (c.mode = .immediate →
          exec (.mul a b c) s = .next { s with fault := some ⟨.invalidWriteTarget 2 c.raw, s.pc⟩ }) ∧
        (c.mode = .position → ¬ s.InBounds c.raw →
          exec (.mul a b c) s = .next { s with fault := some ⟨.outOfBounds c.raw .write, s.pc⟩ }) ∧
        (c.mode = .position → s.InBounds c.raw →
          exec (.mul a b c) s = .next { s with tape := s.tape.set c.raw.toNat (va * vb), pc := s.pc + 4 })

/-- LT as 44_compare.md R86 gives it whole: encoding, the four exceptions of ADD in the same order, result. -/
def Obligations.LtDoesAllItsRuleSays : Prop :=
  ∀ (a b c : Param) (s : State),
    (∀ rest, decodeCells defaultTable
      (((7 + 100 * a.mode.digit + 1000 * b.mode.digit + 10000 * c.mode.digit : Nat) : Int) :: a.raw :: b.raw :: c.raw :: rest)
        = .ok (.instr (.lt a b c), rest)) ∧
    (a.mode = .position → ¬ s.InBounds a.raw →
      exec (.lt a b c) s = .next { s with fault := some ⟨.outOfBounds a.raw .read, s.pc⟩ }) ∧
    ∀ va, s.value a = .ok va →
      (b.mode = .position → ¬ s.InBounds b.raw →
        exec (.lt a b c) s = .next { s with fault := some ⟨.outOfBounds b.raw .read, s.pc⟩ }) ∧
      ∀ vb, s.value b = .ok vb →
        (c.mode = .immediate →
          exec (.lt a b c) s = .next { s with fault := some ⟨.invalidWriteTarget 2 c.raw, s.pc⟩ }) ∧
        (c.mode = .position → ¬ s.InBounds c.raw →
          exec (.lt a b c) s = .next { s with fault := some ⟨.outOfBounds c.raw .write, s.pc⟩ }) ∧
        (c.mode = .position → s.InBounds c.raw → va < vb →
          exec (.lt a b c) s = .next { s with tape := s.tape.set c.raw.toNat 1, pc := s.pc + 4 }) ∧
        (c.mode = .position → s.InBounds c.raw → ¬ va < vb →
          exec (.lt a b c) s = .next { s with tape := s.tape.set c.raw.toNat 0, pc := s.pc + 4 })

/-- EQ as 44_compare.md R87 gives it whole: encoding, the exceptions of LT in the same order, result. -/
def Obligations.EqDoesAllItsRuleSays : Prop :=
  ∀ (a b c : Param) (s : State),
    (∀ rest, decodeCells defaultTable
      (((8 + 100 * a.mode.digit + 1000 * b.mode.digit + 10000 * c.mode.digit : Nat) : Int) :: a.raw :: b.raw :: c.raw :: rest)
        = .ok (.instr (.eq a b c), rest)) ∧
    (a.mode = .position → ¬ s.InBounds a.raw →
      exec (.eq a b c) s = .next { s with fault := some ⟨.outOfBounds a.raw .read, s.pc⟩ }) ∧
    ∀ va, s.value a = .ok va →
      (b.mode = .position → ¬ s.InBounds b.raw →
        exec (.eq a b c) s = .next { s with fault := some ⟨.outOfBounds b.raw .read, s.pc⟩ }) ∧
      ∀ vb, s.value b = .ok vb →
        (c.mode = .immediate →
          exec (.eq a b c) s = .next { s with fault := some ⟨.invalidWriteTarget 2 c.raw, s.pc⟩ }) ∧
        (c.mode = .position → ¬ s.InBounds c.raw →
          exec (.eq a b c) s = .next { s with fault := some ⟨.outOfBounds c.raw .write, s.pc⟩ }) ∧
        (c.mode = .position → s.InBounds c.raw → va = vb →
          exec (.eq a b c) s = .next { s with tape := s.tape.set c.raw.toNat 1, pc := s.pc + 4 }) ∧
        (c.mode = .position → s.InBounds c.raw → va ≠ vb →
          exec (.eq a b c) s = .next { s with tape := s.tape.set c.raw.toNat 0, pc := s.pc + 4 })

/-- The frame of ADD, MUL, LT and EQ: whenever one answers a next state, that state differs at most in the pc, the latch and the
cell its write parameter names; every cell outside the stored one reads as before, and all of them where nothing is stored
because the target is immediate (20_memory.md R30, 40_execution_cycle.md R75). -/
def Obligations.ThreeOperandFrame : Prop :=
  ∀ (i : Instr) (a b c : Param) (s t : State), (i = .add a b c ∨ i = .mul a b c ∨ i = .lt a b c ∨ i = .eq a b c) →
    exec i s = .next t →
    t.runState = s.runState ∧ t.inQ = s.inQ ∧ t.outLog = s.outLog ∧ t.optable = s.optable ∧
    t.tape.length = s.tape.length ∧ (t.fault = s.fault ∨ t.pc = s.pc) ∧
    ∀ addr, storeAddress c ≠ some addr → t.memRead addr = s.memRead addr

/-- Comparison laws (44_compare.md R88): of LT of the operands, EQ of them and LT of them exchanged, run from one state with a
target in the tape, exactly one leaves 1 in the target and the two others leave 0: the first when the first operand is less,
the second when they are equal, the third when the second operand is less. -/
def Obligations.ExactlyOneComparisonHolds : Prop :=
  ∀ (a b c : Param) (s : State) (va vb : Int), s.value a = .ok va → s.value b = .ok vb →
    c.mode = .position → s.InBounds c.raw →
    ∃ x y z : Int,
      exec (.lt a b c) s = .next { s with tape := s.tape.set c.raw.toNat x, pc := s.pc + 4 } ∧
      exec (.eq a b c) s = .next { s with tape := s.tape.set c.raw.toNat y, pc := s.pc + 4 } ∧
      exec (.lt b a c) s = .next { s with tape := s.tape.set c.raw.toNat z, pc := s.pc + 4 } ∧
      (x = 1 ↔ va < vb) ∧ (y = 1 ↔ va = vb) ∧ (z = 1 ↔ vb < va) ∧
      ((x = 1 ∧ y = 0 ∧ z = 0) ∨ (x = 0 ∧ y = 1 ∧ z = 0) ∨ (x = 0 ∧ y = 0 ∧ z = 1))

/-! ## Input and output (42_io.md) -/

/-- IN completes (42_io.md R80): with an integer queued and a position-mode target in the tape, the head of the queue is in the
target cell, the queue has lost it and the pc has advanced by 2. -/
def Obligations.InCompletes : Prop :=
  ∀ (a : Param) (s : State) (v : Int) (q : List Int), s.inQ = v :: q → a.mode = .position → 0 ≤ a.raw →
    a.raw < s.tape.length →
    exec (.input a) s = .next { s with tape := s.tape.set a.raw.toNat v, inQ := q, pc := s.pc + 2 }

/-- Where IN waits and traps (42_io.md R80; the hold is the spec's decision D14, the lost input D8): on an empty queue nothing
changes; with an immediate target, or a position-mode target outside the tape, the integer is consumed and lost, the fault is
latched, and tape and pc are unchanged. -/
def Obligations.InWaitsAndTraps : Prop :=
  ∀ (a : Param) (s : State),
    (s.inQ = [] → exec (.input a) s = .next s) ∧
    ∀ (v : Int) (q : List Int), s.inQ = v :: q →
      (a.mode = .immediate →
        exec (.input a) s = .next { s with inQ := q, fault := some ⟨.invalidWriteTarget 0 a.raw, s.pc⟩ }) ∧
      (a.mode = .position → ¬ s.InBounds a.raw →
        exec (.input a) s = .next { s with inQ := q, fault := some ⟨.outOfBounds a.raw .write, s.pc⟩ })

/-- OUT completes (42_io.md R81): the operand's value is appended to the output and the pc has advanced by 2. -/
def Obligations.OutCompletes : Prop :=
  ∀ (a : Param) (s : State) (va : Int), s.value a = .ok va →
    exec (.output a) s = .next { s with outLog := s.outLog ++ [va], pc := s.pc + 2 }

/-- OUT as 42_io.md R81 gives it whole: encoding, its one exception, which emits nothing, its result, and no change of the tape. -/
def Obligations.OutDoesAllItsRuleSays : Prop :=
  ∀ (a : Param) (s : State),
    (∀ rest, decodeCells defaultTable (((4 + 100 * a.mode.digit : Nat) : Int) :: a.raw :: rest)
      = .ok (.instr (.output a), rest)) ∧
    (a.mode = .position → ¬ s.InBounds a.raw →
      exec (.output a) s = .next { s with fault := some ⟨.outOfBounds a.raw .read, s.pc⟩ }) ∧
    (∀ va, s.value a = .ok va → exec (.output a) s = .next { s with outLog := s.outLog ++ [va], pc := s.pc + 2 }) ∧
    ∀ t, exec (.output a) s = .next t → t.tape = s.tape

/-- The frame of IN: whenever it answers a next state, that state differs at most in the pc, the latch, the input queue and the
cell its parameter names; every cell outside the stored one reads as before; the queue is as before or has lost its head. -/
def Obligations.InFrame : Prop :=
  ∀ (a : Param) (s t : State), exec (.input a) s = .next t →
    t.runState = s.runState ∧ t.outLog = s.outLog ∧ t.optable = s.optable ∧ t.tape.length = s.tape.length ∧
    (t.inQ = s.inQ ∨ ∃ v, s.inQ = v :: t.inQ) ∧ (t.fault = s.fault ∨ t.pc = s.pc) ∧
    ∀ addr, storeAddress a ≠ some addr → t.memRead addr = s.memRead addr

/-- The frame of OUT, JT, JF and HLT: none stores, so every cell reads as before; the input queue and the table are unchanged;
the output grows by OUT only, the execution state moves by HLT only, and HLT moves nothing else (that it
keeps the pc is the spec's decision D9, log entry 11). -/
def Obligations.NonStoringFrame : Prop :=
  ∀ (i : Instr) (a b : Param) (s t : State), (i = .output a ∨ i = .jt a b ∨ i = .jf a b ∨ i = .hlt) →
    exec i s = .next t →
    t.tape = s.tape ∧ (∀ addr, t.memRead addr = s.memRead addr) ∧ t.inQ = s.inQ ∧ t.optable = s.optable ∧
    (i ≠ .output a → t.outLog = s.outLog) ∧ (i ≠ .hlt → t.runState = s.runState) ∧
    (i = .hlt → t.pc = s.pc ∧ t.fault = s.fault) ∧ (t.fault = s.fault ∨ t.pc = s.pc)

/-- Channel order (42_io.md R82) over one execution of any default instruction (an IN held on an empty queue has made no call: the
spec's decision D14, log entry 3): IN consumes exactly the head of a non-empty
queue and emits nothing; OUT emits exactly its operand and consumes nothing; every other instruction calls neither channel. -/
def Obligations.ChannelsAreCalledOncePerInstruction : Prop :=
  ∀ (i : Instr) (s t : State), exec i s = .next t →
    (i.op = .input → t.outLog = s.outLog ∧ t.inQ = s.inQ.tail) ∧
    (∀ a va, i = .output a → s.value a = .ok va → t.outLog = s.outLog ++ [va]) ∧
    (i.op = .output → t.inQ = s.inQ) ∧
    (i.op ≠ .input → i.op ≠ .output → t.inQ = s.inQ ∧ t.outLog = s.outLog)

/-! ## Control transfer and halt (43_jumps.md, 45_halt.md) -/

/-- JT and JF complete (43_jumps.md R83, R84): where both operands resolve, the pc is exactly the second one's value, an absolute
cell index of any sign or size, when the jump is taken (JT: the first is not 0; JF: it is 0), and has advanced by 3 when not (that both
must resolve, taken or not, is the spec's decision D6, log entry 11). -/
def Obligations.JtAndJfComplete : Prop :=
  ∀ (a b : Param) (s : State) (va vb : Int), s.value a = .ok va → s.value b = .ok vb →
    exec (.jt a b) s = .next { s with pc := if va ≠ 0 then vb else s.pc + 3 } ∧
    exec (.jf a b) s = .next { s with pc := if va = 0 then vb else s.pc + 3 }

/-- Where JT and JF trap (43_jumps.md R83, R84; resolving the target of a jump not taken is the spec's decision D6): an
unreadable first operand, then an unreadable second one, whether or not the jump would be taken. -/
def Obligations.JumpsTrapOnUnreadableOperands : Prop :=
  ∀ (i : Instr) (a b : Param) (s : State), (i = .jt a b ∨ i = .jf a b) →
    (a.mode = .position → ¬ s.InBounds a.raw →
      exec i s = .next { s with fault := some ⟨.outOfBounds a.raw .read, s.pc⟩ }) ∧
    ∀ va, s.value a = .ok va → b.mode = .position → ¬ s.InBounds b.raw →
      exec i s = .next { s with fault := some ⟨.outOfBounds b.raw .read, s.pc⟩ }

/-- A jump out of the tape completes and the following fetch faults (43_jumps.md R85; the spec's decision D2): from an enabled
machine a taken JT, or a taken JF, to a target outside 0 to N-1, negative ones included, leaves that target in the pc, and the
next step latches OutOfBoundsAddressError(target, fetch) there. -/
def Obligations.JumpOutsideFaultsAtTheNextFetch : Prop :=
  ∀ (a b : Param) (s : State) (va vb : Int), s.enabled = true → s.value a = .ok va → s.value b = .ok vb →
    (vb < 0 ∨ (s.tape.length : Int) ≤ vb) →
    (va ≠ 0 → exec (.jt a b) s = .next { s with pc := vb }) ∧
    (va = 0 → exec (.jf a b) s = .next { s with pc := vb }) ∧
    step { s with pc := vb } = .next { s with pc := vb, fault := some ⟨.outOfBounds vb .fetch, vb⟩ }

/-- HLT completes (45_halt.md R89, 30_encoding.md R53; the pc kept is the spec's decision D9, the higher digits
ignored its D5, log entry 11): the execution state is halted and all
else unchanged; with the default table any non-negative word at the pc whose two low digits are 99 does so in one step, whatever
its higher digits and also in the last cell of the tape. -/
def Obligations.HltCompletes : Prop :=
  (∀ s : State, exec .hlt s = .next { s with runState := .halted }) ∧
  ∀ (s : State) (w : Nat), s.enabled = true → s.optable = defaultTable → s.memRead s.pc = .ok (w : Int) → w % 100 = 99 →
    step s = .next { s with runState := .halted }

/-- `halted` is terminal and halting is idempotent (45_halt.md R90): no step, no call of `run` however long, and no supply of
input takes the machine out of it or changes its tape; it has completed exactly when no fault is latched. -/
def Obligations.HaltedIsTerminal : Prop :=
  ∀ s : State, s.runState = .halted →
    step s = .next s ∧ s.runEnter = s ∧ (∀ n, runFor n s = .next s) ∧
    (∀ vs, (s.supplyInput vs).runState = .halted ∧ (s.supplyInput vs).tape = s.tape) ∧
    (s.completed = true ↔ s.fault = none)

/-! ## Faults (60_exceptions.md) -/

/-- Precision (60_exceptions.md R109, R108; the spec's decisions D7 and D8): a default instruction that latches a fault leaves
the tape, the pc, the execution state and the output exactly as they were, and the input too unless it is IN, which has consumed
one; the record's pc is the instruction's. -/
def Obligations.FaultingInstructionChangesOnlyTheLatch : Prop :=
  ∀ (i : Instr) (s t : State), s.fault = none → exec i s = .next t → t.fault ≠ none →
    ∃ f : Fault, (i.op ≠ .input ∧ t = { s with fault := some ⟨f, s.pc⟩ }) ∨
      (i.op = .input ∧ ∃ v q, s.inQ = v :: q ∧ t = { s with inQ := q, fault := some ⟨f, s.pc⟩ })

/-- How each default instruction that latches no fault leaves the pc (10_state.md R13): advanced by 4, 2 or 3, at the jump's
target, or unchanged by HLT (the spec's decision D9, log entry 11); an IN that is held leaves everything (40_execution_cycle.md
R59, 42_io.md R80, the spec's decision D14, log entry 3). -/
def Obligations.InstructionsLeaveThePcAsListed : Prop :=
  ∀ (i : Instr) (s t : State), s.fault = none → exec i s = .next t → t.fault = none →
    ((i.op = .add ∨ i.op = .mul ∨ i.op = .lt ∨ i.op = .eq) → t.pc = s.pc + 4) ∧
    (i.op = .output → t.pc = s.pc + 2) ∧
    (i.op = .input → if s.inQ = [] then t = s else t.pc = s.pc + 2) ∧
    (∀ a b, i = .jt a b → ∃ va vb, s.value a = .ok va ∧ s.value b = .ok vb ∧ t.pc = if va ≠ 0 then vb else s.pc + 3) ∧
    (∀ a b, i = .jf a b → ∃ va vb, s.value a = .ok va ∧ s.value b = .ok vb ∧ t.pc = if va = 0 then vb else s.pc + 3) ∧
    (i = .hlt → t.pc = s.pc)

/-- There is no way to resume a faulted machine (60_exceptions.md R111): while the latch is set a step and a call of `run`,
however long, do nothing, neither input nor any instruction clears the latch, and a new reset builds a machine without one. -/
def Obligations.FaultIsFinal : Prop :=
  (∀ s : State, s.fault ≠ none →
    step s = .next s ∧ s.runEnter = s ∧ (∀ n, runFor n s = .next s) ∧ (∀ vs, (s.supplyInput vs).fault = s.fault) ∧
    ∀ i t, exec i s = .next t → t.fault ≠ none) ∧
  ∀ ov image s, State.construct ov image = .ok s → s.fault = none

/-! ## Host-supplied operations (46_custom_operations.md) -/

/-- `SETC(k)` as 46_custom_operations.md R95 gives it whole: bound to opcode 3 it takes IN's word and one parameter; it writes
the constant, with no call of the input channel; an immediate target and a target outside the tape are its two exceptions; and source Scenario 6: with opcode 3 bound to SETC(5), running 3,0,4,0,99 emits 5,
whatever input is supplied, which stays untouched. -/
def Obligations.SetcDoesAllItsRuleSays : Prop :=
  ∀ (k : Int) (w : Int) (a : Param) (s : State),
    (∀ rest, decodeCells (overrideOp defaultTable 3 (.hosted (setc k))) (((3 + 100 * a.mode.digit : Nat) : Int) :: a.raw :: rest)
      = .ok (.hosted (setc k) ((3 + 100 * a.mode.digit : Nat) : Int) [a], rest)) ∧
    (a.mode = .immediate →
      execHosted (setc k) w [a] s = .next { s with fault := some ⟨.invalidWriteTarget 0 a.raw, s.pc⟩ }) ∧
    (a.mode = .position → ¬ s.InBounds a.raw →
      execHosted (setc k) w [a] s = .next { s with fault := some ⟨.outOfBounds a.raw .write, s.pc⟩ }) ∧
    (a.mode = .position → s.InBounds a.raw →
      execHosted (setc k) w [a] s = .next { s with tape := s.tape.set a.raw.toNat k, pc := s.pc + 2 }) ∧
    ∀ q : List Int, ∃ u t, State.construct [(3, .hosted (setc 5))] [3, 0, 4, 0, 99] = .ok u ∧
      runFor 3 (u.supplyInput q) = .next t ∧ t.completed = true ∧ t.outLog = [5] ∧ t.inQ = q

/-- `NOP0` advances by one cell (46_custom_operations.md R96) and `INS` suspends on an empty queue with nothing consumed, else
does what IN does and is never held (R97, the spec's decision D13; the pc kept on suspend is its D9, log entry 11). -/
def Obligations.NopAdvancesAndInsSuspendsOrReads : Prop :=
  ∀ (w : Int) (a : Param) (s : State),
    execHosted nop0 w [] s = .next { s with pc := s.pc + 1 } ∧
    (s.inQ = [] → execHosted ins w [a] s = .next { s with runState := .suspended }) ∧
    (s.inQ ≠ [] → execHosted ins w [a] s = exec (.input a) s)

/-- Each default operation is its pseudocode (40_execution_cycle.md R76): running the program over the primitives that its rule
writes down, as a host-supplied operation, and executing the instruction answer the same, on every state and operand. -/
def Obligations.DefaultOperationsRunTheirPseudocode : Prop :=
  ∀ (i : Instr) (word : Int) (s : State), execHosted (pseudocode i.op) word i.params s = exec i s

/-! ## Whole-machine rules -/

/-- The invariant of every machine a host can have is kept by every step, default or host-supplied (10_state.md R12, R14, R16,
R20, 60_exceptions.md R100 to R104, R108; what the latch keeps is the spec's decision D7, log entry 11). -/
def Obligations.StepKeepsTheMachineInvariant : Prop :=
  ∀ s t : State, s.Inv → step s = .next t → t.Inv

/-- The invariant holds at reset (10_state.md R20; the empty image is the model's choice, log entry 4). -/
def Obligations.ResetHasTheMachineInvariant : Prop := State.reset.Inv

/-- Construction with any overrides it accepts and any image gives a machine with the invariant, and the host's run and supply of
input keep it (10_state.md R20, R22, R25, 70_reset_and_hazards.md R120). -/
def Obligations.HostTransactionsKeepTheMachineInvariant : Prop :=
  (∀ ov image s, State.construct ov image = .ok s → s.Inv) ∧
  (∀ s : State, s.Inv → s.runEnter.Inv) ∧
  (∀ (s : State) vs, s.Inv → (s.supplyInput vs).Inv)

/-- Every step of every machine whose host-supplied behaviours terminate, as 46_custom_operations.md R91 asks, answers a next
state: nothing is refused and nothing stops outside the machine's own latch (R99, 60_exceptions.md R106, R108). The default
table with terminating overrides is such a table; a behaviour without whileDo terminates, and so does one that reads the whole
queue out (while InputReady() do Output(Input())). A behaviour that never ends, which R91 does not admit, is refused by name
(the model's choice, log entry 14). -/
def Obligations.EveryMachineAnswersEveryStep : Prop :=
  (∀ s : State, OpTable.wf s.optable = true → TableTerminates s.optable → ∃ t, step s = .next t) ∧
  (∀ ov t, applyOverrides defaultTable ov = .ok t → (∀ o h, (o, Operation.hosted h) ∈ ov → Terminates h) →
    TableTerminates t) ∧
  (∀ h : HostOp, h.body.whileFree = true → Terminates h) ∧
  Terminates ⟨0, .seq (.inputReady 0) (.whileDo (.var 0) (.seq (.input 1) (.seq (.output (.var 1)) (.inputReady 0)))), .advance⟩ ∧
  ∀ (s : State) (h : HostOp) (w : Int) (ps : List Param), s.enabled = true → h.wf = true → s.fetch = .ok (.hosted h w ps) →
    behave ⟨s.pc, w, ps⟩ h.body s = none → step s = .refused .endlessBehaviour

/-- With the default table a machine never suspends, and where it is halted the cell at the pc holds a HLT: an invariant of every
step, true of any freshly constructed default machine (93_implementation_defined.md U4, 46_custom_operations.md R93,
45_halt.md R89; that the pc stays at the HLT is the spec's decision D9, log entry 11). -/
def Obligations.DefaultMachineNeverSuspends : Prop :=
  (∀ s t : State, s.DefaultInv → step s = .next t → t.DefaultInv) ∧
  ∀ image s, State.construct [] image = .ok s → s.DefaultInv ∧ s.runEnter.DefaultInv

/-- The tape never grows or shrinks, keeps its canonical form, and the table never changes, over any step of any accepted
operation (20_memory.md R33, 10_state.md R19; the fixed length is the spec's decision D11). -/
def Obligations.StepKeepsTapeLengthAndTable : Prop :=
  ∀ (s t : State) (n : Nat), OpTable.wf s.optable = true → Memory.wf n s.tape = true → step s = .next t →
    Memory.wf n t.tape = true ∧ t.optable = s.optable

/-- Over any step of any accepted operation the output log only grows at its end and the input queue only shrinks from its head
(10_state.md R17, R23, R24). -/
def Obligations.StepOnlyAppendsOutputAndConsumesInput : Prop :=
  ∀ s t : State, OpTable.wf s.optable = true → step s = .next t →
    (∃ vs, t.outLog = s.outLog ++ vs) ∧ ∃ vs, s.inQ = vs ++ t.inQ

/-- Nothing a program does depends on what was emitted before (10_state.md R9: out_log is read by the host alone): with an
earlier log put in front, every step answers the same state with the same log in front. -/
def Obligations.EarlierOutputIsNeverObserved : Prop :=
  ∀ (s t : State) (earlier : List Int), step s = .next t →
    step { s with outLog := earlier ++ s.outLog } = .next { t with outLog := earlier ++ t.outLog }

/-! ## Reset, run and program text (70_reset_and_hazards.md, 40_execution_cycle.md R73) -/

/-- Reset (70_reset_and_hazards.md R120): the default table with each override applied in order; an operation with an
arity outside 0 to 3 is refused (the spec's decision D12), and so is one that names a parameter it does not have (the model's
reading, log entry 8), and no machine is built, from an image or from a text; a text that does not parse builds none; every
element of state takes its reset value, no instruction runs, and no step is taken, whatever input is supplied, until the host
calls run. -/
def Obligations.ConstructLoadsTheResetValues : Prop :=
  (∀ ov t image, applyOverrides defaultTable ov = .ok t →
    State.construct ov image = .ok ⟨image, 0, .uninitialized, none, [], [], t⟩ ∧
    ∀ ws text,
      (parseProgram ws text = .ok image → State.constructText ws ov text = .ok ⟨image, 0, .uninitialized, none, [], [], t⟩) ∧
      (∀ f, parseProgram ws text = .error f → State.constructText ws ov text = .error (.program f))) ∧
  (∀ (pre post : List (Int × Operation)) (o : Int) (op : Operation) (t : OpTable) (image : List Int),
    applyOverrides defaultTable pre = .ok t →
    (op.wf = false → State.construct (pre ++ (o, op) :: post) image = .error (.operationRefused o)) ∧
    (op.wf = true → applyOverrides defaultTable (pre ++ (o, op) :: post) = applyOverrides (overrideOp t o op) post)) ∧
  (∀ ov r, applyOverrides defaultTable ov = .error r → ∀ ws text, State.constructText ws ov text = .error (.table r)) ∧
  (∀ h : HostOp, 3 < h.arity → (Operation.hosted h).wf = false) ∧
  ∀ ov image s, State.construct ov image = .ok s → ∀ vs,
    step (s.supplyInput vs) = .next (s.supplyInput vs) ∧ (s.supplyInput vs).runEnter.enabled = true

/-- What a call of `run` does before its first step, and when it returns (40_execution_cycle.md R73, the spec's decision D7;
70_reset_and_hazards.md R129). -/
def Obligations.RunEntersAndReturnsAsListed : Prop :=
  ∀ s : State,
    (s.fault ≠ none → s.runEnter = s) ∧
    (s.fault = none → s.runState = .halted → s.runEnter = s) ∧
    (s.fault = none → (s.runState = .uninitialized ∨ s.runState = .suspended) →
      s.runEnter = { s with runState := .running }) ∧
    (s.hasReturned = true ↔ s.runState = .halted ∨ s.runState = .suspended ∨ s.fault ≠ none) ∧
    ∀ n, s.runEnter.hasReturned = true → runFor n s = .next s.runEnter

/-- The run loop (40_execution_cycle.md R73): watching a call of `run` one step longer is running the watched part and then
taking one step where it has not returned; so what a call of `run` has answered it answers for good. -/
def Obligations.RunIsTheLoopOfSteps : Prop :=
  ∀ (s t : State) (n : Nat), runFor n s = .next t →
    runFor (n + 1) s = (if t.hasReturned then .next t else step t) ∧
    (t.hasReturned = true → ∀ m, runFor (n + m) s = .next t)

/-- Round trip (70_reset_and_hazards.md R123): a machine constructed from the serialisation of a non-empty tape holds that tape
when read back without running, whether or not the loader strips white space; the serialisation is the integers in canonical
decimal (`0` for zero, `-` for negatives, no leading zeros) joined by single commas; the empty tape has no text. -/
def Obligations.SerialisedTapeReadsBack : Prop :=
  (∀ (tape : List Int) (ws : Bool), tape ≠ [] →
    ∃ s, State.constructText ws [] (serialise tape) = .ok s ∧ s.readTape = tape) ∧
  (integerText 0 = ['0'] ∧ (∀ v : Int, 0 < v → (integerText v).head? ≠ some '0') ∧
    ∀ v : Int, v < 0 → integerText v = '-' :: integerText (-v)) ∧
  (∀ tape : List Int, serialise tape = [','].intercalate (tape.map integerText)) ∧
  parseProgram false [] = .error (.malformedProgram 0)

/-- The loader's grammar (70_reset_and_hazards.md R122; comma, strictness and the empty string are the spec's decision D15): with
the default parameter a text is one or more tokens between commas; a token is an integer v exactly when it is one or more digits
0 to 9 whose decimal value is v, or a minus sign before such digits whose value is -v; the text parses exactly when every token
is an integer, the k-th giving cell k-1, and else fails with the index of the first token that is none. -/
def Obligations.LoaderReportsTheFirstBadToken : Prop :=
  ∀ text : List Char,
    (∀ (pre post : List (List Char)) (bad : List Char), splitTokens text = pre ++ bad :: post →
      (∀ t ∈ pre, (parseInteger t).isSome) → parseInteger bad = none →
      parseProgram false text = .error (.malformedProgram pre.length)) ∧
    (∀ vs : List Int, parseProgram false text = .ok vs ↔ (splitTokens text).map parseInteger = vs.map some) ∧
    (splitTokens text ≠ [] ∧ [','].intercalate (splitTokens text) = text ∧ ∀ t ∈ splitTokens text, ',' ∉ t) ∧
    ∀ (token : List Char) (v : Int), parseInteger token = some v ↔
      ∃ ds : List Nat, ds ≠ [] ∧ (∀ d ∈ ds, d < 10) ∧
        ((token = ds.map Nat.digitChar ∧ v = (ds.foldl (fun n d => 10 * n + d) 0 : Nat)) ∨
         (token = '-' :: ds.map Nat.digitChar ∧ v = -(ds.foldl (fun n d => 10 * n + d) 0 : Nat)))

/-- The host's accessors (10_state.md R25, 20_memory.md R34; the failure on an empty tape is the spec's decision D11, and the
address it carries for readLast the model's choice, log entry 12): on a tape with cells result() is the first and readLast() the
last of them; on the empty tape both fail with OutOfBoundsAddressError, as answers to the host that set no latch. -/
def Obligations.AccessorsReadFirstAndLastCell : Prop :=
  (∀ (s : State) (n : Nat) (first last : Int), s.tape.length = n + 1 → s.tape[0]? = some first → s.tape[n]? = some last →
    s.result = .ok first ∧ s.readLast = .ok last) ∧
  ∀ s : State, s.tape = [] → s.result = .error (.outOfBounds 0 .read) ∧ s.readLast = .error (.outOfBounds 0 .read)
end

