-- ==== Sys2Proof/Laws/Decode.lean ====
section
/-! SUPPORT. Small lemmas of the default table, the modes and the encoder. -/
namespace Sys2Proof

theorem lookup_default_opcode (op : OpName) : lookupOp defaultTable (op.opcode : Int) = some (.default op) := by
  cases op <;> rfl

/-- The default table binds nothing but the nine default operations, each at its opcode. -/
theorem lookup_default_some {o : Int} {op : Operation} (h : lookupOp defaultTable o = some op) :
    ∃ n : OpName, op = .default n ∧ o = n.opcode := by
  simp only [defaultTable, lookupOp] at h
  split at h
  · exact ⟨.add, by simpa using h.symm, by simp_all [OpName.opcode]⟩
  split at h
  · exact ⟨.mul, by simpa using h.symm, by simp_all [OpName.opcode]⟩
  split at h
  · exact ⟨.input, by simpa using h.symm, by simp_all [OpName.opcode]⟩
  split at h
  · exact ⟨.output, by simpa using h.symm, by simp_all [OpName.opcode]⟩
  split at h
  · exact ⟨.jt, by simpa using h.symm, by simp_all [OpName.opcode]⟩
  split at h
  · exact ⟨.jf, by simpa using h.symm, by simp_all [OpName.opcode]⟩
  split at h
  · exact ⟨.lt, by simpa using h.symm, by simp_all [OpName.opcode]⟩
  split at h
  · exact ⟨.eq, by simpa using h.symm, by simp_all [OpName.opcode]⟩
  split at h
  · exact ⟨.hlt, by simpa using h.symm, by simp_all [OpName.opcode]⟩
  · simp at h

theorem opcode_lt (op : OpName) : op.opcode < 100 := by cases op <;> decide

theorem defaultTable_wf : OpTable.wf defaultTable = true := by decide

theorem instr_params_length (i : Instr) : i.params.length = i.op.arity := by cases i <;> rfl

@[simp] theorem ofParams_params (i : Instr) : Instr.ofParams i.op i.params = i := by cases i <;> rfl

/-- An instruction made of as many parameters as its operation has gives them back. -/
theorem params_ofParams {op : OpName} {ps : List Param} (h : ps.length = op.arity) : (Instr.ofParams op ps).params = ps := by
  cases op <;>
    match ps, h with
    | [], h => first | rfl | simp [OpName.arity] at h
    | [_], h => first | rfl | simp [OpName.arity] at h
    | [_, _], h => first | rfl | simp [OpName.arity] at h
    | [_, _, _], h => first | rfl | simp [OpName.arity] at h
    | _ :: _ :: _ :: _ :: _, h => simp [OpName.arity] at h

@[simp] theorem op_ofParams (op : OpName) (ps : List Param) : (Instr.ofParams op ps).op = op := by cases op <;> rfl

theorem mode_digit_lt (m : Mode) : m.digit < 2 := by cases m <;> decide

/-- Parameters fetched are as many as the modes, have those modes and hold the cells, in order. -/
theorem takeParams_ok {p : Nat} {ms : List Mode} {cells rest : List Int} {ps : List Param}
    (h : takeParams p ms cells = .ok (ps, rest)) : ps.map Param.mode = ms ∧ cells = ps.map Param.raw ++ rest := by
  induction ms generalizing p cells ps with
  | nil =>
    simp only [takeParams, Except.ok.injEq, Prod.mk.injEq] at h
    obtain ⟨rfl, rfl⟩ := h
    exact ⟨rfl, rfl⟩
  | cons m ms ih =>
    cases cells with
    | nil => simp [takeParams] at h
    | cons v cells =>
      unfold takeParams at h
      cases hr : takeParams (p + 1) ms cells with
      | error e => simp [hr, Except.map] at h
      | ok r =>
        obtain ⟨ps', rest'⟩ := r
        simp only [hr, Except.map, Except.ok.injEq, Prod.mk.injEq] at h
        obtain ⟨rfl, rfl⟩ := h
        obtain ⟨h1, h2⟩ := ih hr
        exact ⟨by simp [h1], by simp [h2]⟩

/-- The parameter fetch succeeds on any parameters laid out in order. -/
theorem takeParams_encode (p : Nat) (ps : List Param) (rest : List Int) :
    takeParams p (ps.map Param.mode) (ps.map Param.raw ++ rest) = .ok (ps, rest) := by
  induction ps generalizing p with
  | nil => rfl
  | cons a ps ih => simp [takeParams, ih, Except.map]

end Sys2Proof
end

