-- ==== Sys2Proof/Laws/State.lean ====
section
/-! SUPPORT. One lemma per field per update of the state, so that no proof unfolds a record update. -/
namespace Sys2Proof.Machine

@[simp] theorem State.raise_tape (s : State) (f : Fault) : (s.raise f).tape = s.tape := rfl
@[simp] theorem State.raise_pc (s : State) (f : Fault) : (s.raise f).pc = s.pc := rfl
@[simp] theorem State.raise_runState (s : State) (f : Fault) : (s.raise f).runState = s.runState := rfl
@[simp] theorem State.raise_fault (s : State) (f : Fault) : (s.raise f).fault = some ⟨f, s.pc⟩ := rfl
@[simp] theorem State.raise_inQ (s : State) (f : Fault) : (s.raise f).inQ = s.inQ := rfl
@[simp] theorem State.raise_outLog (s : State) (f : Fault) : (s.raise f).outLog = s.outLog := rfl
@[simp] theorem State.raise_optable (s : State) (f : Fault) : (s.raise f).optable = s.optable := rfl

@[simp] theorem State.emit_tape (s : State) (v : Int) : (s.emit v).tape = s.tape := rfl
@[simp] theorem State.emit_pc (s : State) (v : Int) : (s.emit v).pc = s.pc := rfl
@[simp] theorem State.emit_runState (s : State) (v : Int) : (s.emit v).runState = s.runState := rfl
@[simp] theorem State.emit_fault (s : State) (v : Int) : (s.emit v).fault = s.fault := rfl
@[simp] theorem State.emit_inQ (s : State) (v : Int) : (s.emit v).inQ = s.inQ := rfl
@[simp] theorem State.emit_outLog (s : State) (v : Int) : (s.emit v).outLog = s.outLog ++ [v] := rfl
@[simp] theorem State.emit_optable (s : State) (v : Int) : (s.emit v).optable = s.optable := rfl

@[simp] theorem State.advance_tape (s : State) (n : Nat) : (s.applySignal n .advance).tape = s.tape := rfl
@[simp] theorem State.advance_pc (s : State) (n : Nat) : (s.applySignal n .advance).pc = s.pc + 1 + n := rfl
@[simp] theorem State.advance_runState (s : State) (n : Nat) : (s.applySignal n .advance).runState = s.runState := rfl
@[simp] theorem State.advance_fault (s : State) (n : Nat) : (s.applySignal n .advance).fault = s.fault := rfl
@[simp] theorem State.advance_inQ (s : State) (n : Nat) : (s.applySignal n .advance).inQ = s.inQ := rfl
@[simp] theorem State.advance_outLog (s : State) (n : Nat) : (s.applySignal n .advance).outLog = s.outLog := rfl
@[simp] theorem State.advance_optable (s : State) (n : Nat) : (s.applySignal n .advance).optable = s.optable := rfl

@[simp] theorem State.jump_tape (s : State) (n : Nat) (t : Int) : (s.applySignal n (.jump t)).tape = s.tape := rfl
@[simp] theorem State.jump_pc (s : State) (n : Nat) (t : Int) : (s.applySignal n (.jump t)).pc = t := rfl
@[simp] theorem State.jump_runState (s : State) (n : Nat) (t : Int) : (s.applySignal n (.jump t)).runState = s.runState := rfl
@[simp] theorem State.jump_fault (s : State) (n : Nat) (t : Int) : (s.applySignal n (.jump t)).fault = s.fault := rfl
@[simp] theorem State.jump_inQ (s : State) (n : Nat) (t : Int) : (s.applySignal n (.jump t)).inQ = s.inQ := rfl
@[simp] theorem State.jump_outLog (s : State) (n : Nat) (t : Int) : (s.applySignal n (.jump t)).outLog = s.outLog := rfl
@[simp] theorem State.jump_optable (s : State) (n : Nat) (t : Int) : (s.applySignal n (.jump t)).optable = s.optable := rfl

@[simp] theorem State.halt_tape (s : State) (n : Nat) : (s.applySignal n .halt).tape = s.tape := rfl
@[simp] theorem State.halt_pc (s : State) (n : Nat) : (s.applySignal n .halt).pc = s.pc := rfl
@[simp] theorem State.halt_runState (s : State) (n : Nat) : (s.applySignal n .halt).runState = .halted := rfl
@[simp] theorem State.halt_fault (s : State) (n : Nat) : (s.applySignal n .halt).fault = s.fault := rfl
@[simp] theorem State.halt_inQ (s : State) (n : Nat) : (s.applySignal n .halt).inQ = s.inQ := rfl
@[simp] theorem State.halt_outLog (s : State) (n : Nat) : (s.applySignal n .halt).outLog = s.outLog := rfl
@[simp] theorem State.halt_optable (s : State) (n : Nat) : (s.applySignal n .halt).optable = s.optable := rfl

@[simp] theorem State.suspend_tape (s : State) (n : Nat) : (s.applySignal n .suspend).tape = s.tape := rfl
@[simp] theorem State.suspend_pc (s : State) (n : Nat) : (s.applySignal n .suspend).pc = s.pc := rfl
@[simp] theorem State.suspend_runState (s : State) (n : Nat) : (s.applySignal n .suspend).runState = .suspended := rfl
@[simp] theorem State.suspend_fault (s : State) (n : Nat) : (s.applySignal n .suspend).fault = s.fault := rfl
@[simp] theorem State.suspend_inQ (s : State) (n : Nat) : (s.applySignal n .suspend).inQ = s.inQ := rfl
@[simp] theorem State.suspend_outLog (s : State) (n : Nat) : (s.applySignal n .suspend).outLog = s.outLog := rfl
@[simp] theorem State.suspend_optable (s : State) (n : Nat) : (s.applySignal n .suspend).optable = s.optable := rfl

@[simp] theorem State.supplyInput_tape (s : State) (vs : List Int) : (s.supplyInput vs).tape = s.tape := rfl
@[simp] theorem State.supplyInput_pc (s : State) (vs : List Int) : (s.supplyInput vs).pc = s.pc := rfl
@[simp] theorem State.supplyInput_runState (s : State) (vs : List Int) : (s.supplyInput vs).runState = s.runState := rfl
@[simp] theorem State.supplyInput_fault (s : State) (vs : List Int) : (s.supplyInput vs).fault = s.fault := rfl
@[simp] theorem State.supplyInput_inQ (s : State) (vs : List Int) : (s.supplyInput vs).inQ = s.inQ ++ vs := rfl
@[simp] theorem State.supplyInput_outLog (s : State) (vs : List Int) : (s.supplyInput vs).outLog = s.outLog := rfl
@[simp] theorem State.supplyInput_optable (s : State) (vs : List Int) : (s.supplyInput vs).optable = s.optable := rfl

@[simp] theorem State.withFetchWord_tape (s : State) (n w : Nat) : (s.withFetchWord n w).tape = placeCells s.tape s.pc.toNat (tableCells w) := rfl
@[simp] theorem State.withFetchWord_pc (s : State) (n w : Nat) : (s.withFetchWord n w).pc = (s.pc.toNat : Int) := rfl
@[simp] theorem State.withFetchWord_runState (s : State) (n w : Nat) : (s.withFetchWord n w).runState = .running := rfl
@[simp] theorem State.withFetchWord_fault (s : State) (n w : Nat) : (s.withFetchWord n w).fault = none := rfl
@[simp] theorem State.withFetchWord_inQ (s : State) (n w : Nat) : (s.withFetchWord n w).inQ = s.inQ := rfl
@[simp] theorem State.withFetchWord_outLog (s : State) (n w : Nat) : (s.withFetchWord n w).outLog = s.outLog := rfl
@[simp] theorem State.withFetchWord_optable (s : State) (n w : Nat) : (s.withFetchWord n w).optable = s.optable := rfl

@[simp] theorem State.reset_tape  : (State.reset).tape = [] := rfl
@[simp] theorem State.reset_pc  : (State.reset).pc = 0 := rfl
@[simp] theorem State.reset_runState  : (State.reset).runState = .uninitialized := rfl
@[simp] theorem State.reset_fault  : (State.reset).fault = none := rfl
@[simp] theorem State.reset_inQ  : (State.reset).inQ = [] := rfl
@[simp] theorem State.reset_outLog  : (State.reset).outLog = [] := rfl
@[simp] theorem State.reset_optable  : (State.reset).optable = defaultTable := rfl

/-- No signal changes `tape`. -/
@[simp] theorem State.applySignal_tape (s : State) (n : Nat) (sig : Signal) : (s.applySignal n sig).tape = s.tape := by
  cases sig <;> rfl

/-- No signal changes `fault`. -/
@[simp] theorem State.applySignal_fault (s : State) (n : Nat) (sig : Signal) : (s.applySignal n sig).fault = s.fault := by
  cases sig <;> rfl

/-- No signal changes `inQ`. -/
@[simp] theorem State.applySignal_inQ (s : State) (n : Nat) (sig : Signal) : (s.applySignal n sig).inQ = s.inQ := by
  cases sig <;> rfl

/-- No signal changes `outLog`. -/
@[simp] theorem State.applySignal_outLog (s : State) (n : Nat) (sig : Signal) : (s.applySignal n sig).outLog = s.outLog := by
  cases sig <;> rfl

/-- No signal changes `optable`. -/
@[simp] theorem State.applySignal_optable (s : State) (n : Nat) (sig : Signal) : (s.applySignal n sig).optable = s.optable := by
  cases sig <;> rfl

/-- Entering `run` leaves `tape` as it is. -/
@[simp] theorem State.runEnter_tape (s : State) : s.runEnter.tape = s.tape := by
  unfold State.runEnter
  split
  · rfl
  · split <;> rfl

/-- Entering `run` leaves `pc` as it is. -/
@[simp] theorem State.runEnter_pc (s : State) : s.runEnter.pc = s.pc := by
  unfold State.runEnter
  split
  · rfl
  · split <;> rfl

/-- Entering `run` leaves `fault` as it is. -/
@[simp] theorem State.runEnter_fault (s : State) : s.runEnter.fault = s.fault := by
  unfold State.runEnter
  split
  · rfl
  · split <;> rfl

/-- Entering `run` leaves `inQ` as it is. -/
@[simp] theorem State.runEnter_inQ (s : State) : s.runEnter.inQ = s.inQ := by
  unfold State.runEnter
  split
  · rfl
  · split <;> rfl

/-- Entering `run` leaves `outLog` as it is. -/
@[simp] theorem State.runEnter_outLog (s : State) : s.runEnter.outLog = s.outLog := by
  unfold State.runEnter
  split
  · rfl
  · split <;> rfl

/-- Entering `run` leaves `optable` as it is. -/
@[simp] theorem State.runEnter_optable (s : State) : s.runEnter.optable = s.optable := by
  unfold State.runEnter
  split
  · rfl
  · split <;> rfl

end Sys2Proof.Machine
end

