-- ==== Sys2Proof/Laws/Memory.lean ====
section
/-! SUPPORT. What the primitives over the tape, the channels and the operands can do, said once each. -/
namespace Sys2Proof.Machine

theorem memRead_eq_ok_iff (s : State) (a v : Int) :
    s.memRead a = .ok v ↔ 0 ≤ a ∧ s.tape[a.toNat]? = some v := by
  unfold State.memRead
  by_cases h : 0 ≤ a
  · cases hc : s.tape[a.toNat]? <;> simp [h]
  · simp [h]

theorem memRead_outOfBounds {s : State} {a : Int} (h : ¬ s.InBounds a) :
    s.memRead a = .error (.outOfBounds a .read) := by
  unfold State.memRead
  by_cases h0 : 0 ≤ a
  · have hn : s.tape[a.toNat]? = none := by
      rw [List.getElem?_eq_none_iff]
      have := mt (And.intro h0) h
      omega
    simp [h0, hn]
  · simp [h0]

theorem memRead_inBounds {s : State} {a : Int} (h : s.InBounds a) :
    ∃ v, s.tape[a.toNat]? = some v ∧ s.memRead a = .ok v := by
  have hl : a.toNat < s.tape.length := by have := h.1; have := h.2; omega
  exact ⟨_, List.getElem?_eq_getElem hl, (memRead_eq_ok_iff ..).2 ⟨h.1, List.getElem?_eq_getElem hl⟩⟩

/-- A read fails only with the fault of its address, which is out of bounds. -/
theorem memRead_eq_error {s : State} {a : Int} {f : Fault} (h : s.memRead a = .error f) :
    f = .outOfBounds a .read ∧ ¬ s.InBounds a := by
  by_cases hb : s.InBounds a
  · obtain ⟨v, -, hv⟩ := memRead_inBounds hb
    simp [hv] at h
  · rw [memRead_outOfBounds hb] at h
    exact ⟨by simpa using h.symm, hb⟩

/-- A read depends on the tape alone. -/
theorem memRead_congr {s t : State} (h : t.tape = s.tape) (a : Int) : t.memRead a = s.memRead a := by
  unfold State.memRead
  rw [h]

theorem memWrite_inBounds {s : State} {a : Int} (h : s.InBounds a) (v : Int) :
    s.memWrite a v = .ok { s with tape := s.tape.set a.toNat v } := by
  simp [State.memWrite, h]

theorem memWrite_outOfBounds {s : State} {a : Int} (h : ¬ s.InBounds a) (v : Int) :
    s.memWrite a v = .error (.outOfBounds a .write) := by
  simp only [State.memWrite, h, if_false]

theorem memWrite_eq_ok {s t : State} {a v : Int} (h : s.memWrite a v = .ok t) :
    s.InBounds a ∧ t = { s with tape := s.tape.set a.toNat v } := by
  by_cases hb : s.InBounds a
  · rw [memWrite_inBounds hb] at h
    exact ⟨hb, by simpa using h.symm⟩
  · simp [memWrite_outOfBounds hb] at h

theorem memWrite_eq_error {s : State} {a v : Int} {f : Fault} (h : s.memWrite a v = .error f) :
    f = .outOfBounds a .write ∧ ¬ s.InBounds a := by
  by_cases hb : s.InBounds a
  · simp [memWrite_inBounds hb] at h
  · rw [memWrite_outOfBounds hb] at h
    exact ⟨by simpa using h.symm, hb⟩

/-- Setting a cell leaves the read of every other address as it was. -/
theorem memRead_set_other (s : State) {a b : Int} (h : b ≠ a) (h0 : 0 ≤ a) (v : Int) :
    ({ s with tape := s.tape.set a.toNat v } : State).memRead b = s.memRead b := by
  unfold State.memRead
  by_cases hb : 0 ≤ b
  · have : a.toNat ≠ b.toNat := by omega
    simp only [hb, if_true, List.getElem?_set_ne this]
  · simp [hb]

/-- Reading the cell just set gives the value. -/
theorem memRead_set_same (s : State) {a : Int} (h : s.InBounds a) (v : Int) :
    ({ s with tape := s.tape.set a.toNat v } : State).memRead a = .ok v := by
  rw [memRead_eq_ok_iff]
  refine ⟨h.1, ?_⟩
  have : a.toNat < s.tape.length := by have := h.1; have := h.2; omega
  simp [this]

/-- The tape keeps its canonical form under the one operation that changes it. -/
theorem memWrite_wf {s t : State} {a v : Int} {n : Nat} (hw : Memory.wf n s.tape = true) (h : s.memWrite a v = .ok t) :
    Memory.wf n t.tape = true := by
  obtain ⟨-, rfl⟩ := memWrite_eq_ok h
  simpa [Memory.wf] using hw

theorem reset_memory_wf : Memory.wf 0 State.reset.tape = true := rfl

theorem takeInput_eq_none_iff (s : State) : s.takeInput = none ↔ s.inQ = [] := by
  unfold State.takeInput
  cases s.inQ <;> simp

theorem takeInput_eq_some {s t : State} {v : Int} (h : s.takeInput = some (v, t)) :
    ∃ q, s.inQ = v :: q ∧ t = { s with inQ := q } := by
  unfold State.takeInput at h
  cases hq : s.inQ with
  | nil => simp [hq] at h
  | cons w q =>
    simp only [hq, Option.some.injEq, Prod.mk.injEq] at h
    obtain ⟨rfl, rfl⟩ := h
    exact ⟨q, rfl, rfl⟩

theorem enabled_iff (s : State) : s.enabled = true ↔ s.runState = .running ∧ s.fault = none := by
  simp [State.enabled, Option.isNone_iff_eq_none]

theorem value_immediate {s : State} {a : Param} (h : a.mode = .immediate) : s.value a = .ok a.raw := by
  simp [State.value, h]

theorem value_position {s : State} {a : Param} (h : a.mode = .position) : s.value a = s.memRead a.raw := by
  simp [State.value, h]

/-- An operand fails only in position mode, with the read fault of its raw parameter. -/
theorem value_eq_error {s : State} {a : Param} {f : Fault} (h : s.value a = .error f) :
    a.mode = .position ∧ f = .outOfBounds a.raw .read ∧ ¬ s.InBounds a.raw := by
  cases hm : a.mode with
  | immediate => simp [value_immediate hm] at h
  | position =>
    rw [value_position hm] at h
    exact ⟨rfl, memRead_eq_error h⟩

theorem value_outOfBounds {s : State} {a : Param} (hm : a.mode = .position) (h : ¬ s.InBounds a.raw) :
    s.value a = .error (.outOfBounds a.raw .read) := by
  rw [value_position hm, memRead_outOfBounds h]

/-- An operand depends on the tape alone. -/
theorem value_congr {s t : State} (h : t.tape = s.tape) (a : Param) : t.value a = s.value a := by
  unfold State.value
  cases a.mode <;> simp [memRead_congr h]

theorem writeParam_immediate {s : State} {a : Param} (h : a.mode = .immediate) (p : Nat) (v : Int) :
    s.writeParam p a v = .error (.invalidWriteTarget p a.raw) := by
  simp [State.writeParam, storeAddress, h]

theorem writeParam_position {s : State} {a : Param} (h : a.mode = .position) (p : Nat) (v : Int) :
    s.writeParam p a v = s.memWrite a.raw v := by
  simp [State.writeParam, storeAddress, h]

theorem writeParam_eq_ok {s t : State} {p : Nat} {a : Param} {v : Int} (h : s.writeParam p a v = .ok t) :
    a.mode = .position ∧ s.InBounds a.raw ∧ t = { s with tape := s.tape.set a.raw.toNat v } := by
  cases hm : a.mode with
  | immediate => simp [writeParam_immediate hm] at h
  | position =>
    rw [writeParam_position hm] at h
    exact ⟨rfl, memWrite_eq_ok h⟩

theorem writeParam_eq_error {s : State} {p : Nat} {a : Param} {v : Int} {f : Fault} (h : s.writeParam p a v = .error f) :
    (a.mode = .immediate ∧ f = .invalidWriteTarget p a.raw) ∨
    (a.mode = .position ∧ f = .outOfBounds a.raw .write ∧ ¬ s.InBounds a.raw) := by
  cases hm : a.mode with
  | immediate =>
    rw [writeParam_immediate hm] at h
    exact .inl ⟨rfl, by simpa using h.symm⟩
  | position =>
    rw [writeParam_position hm] at h
    exact .inr ⟨rfl, memWrite_eq_error h⟩

end Sys2Proof.Machine
end

