-- ==== Sys2Proof/Laws/PerInstr.lean ====
section
/-! SUPPORT. The statements made instruction by instruction. Family `Layout`: an instruction's encoding occupies one cell more
than its operation's arity, and its word's two low digits are its opcode (30_encoding.md R42, R44). -/
namespace Sys2Proof.Laws.Layout

/-- The layout of one instruction's encoding. -/
def Statement (i : Instr) : Prop :=
  (encode i).length = 1 + i.op.arity ∧ opcodeOf i.word = i.op.opcode

/-- The word's two low digits are the opcode, whatever the parameters. -/
theorem opcodeOf_word (i : Instr) : opcodeOf i.word = i.op.opcode := by
  have := opcode_lt i.op
  simp only [opcodeOf, Instr.word]
  omega

theorem add (a b c : Param) : Statement (.add a b c) := ⟨rfl, opcodeOf_word _⟩

theorem mul (a b c : Param) : Statement (.mul a b c) := ⟨rfl, opcodeOf_word _⟩

theorem input (a : Param) : Statement (.input a) := ⟨rfl, opcodeOf_word _⟩

theorem output (a : Param) : Statement (.output a) := ⟨rfl, opcodeOf_word _⟩

theorem jt (a b : Param) : Statement (.jt a b) := ⟨rfl, opcodeOf_word _⟩

theorem jf (a b : Param) : Statement (.jf a b) := ⟨rfl, opcodeOf_word _⟩

theorem lt (a b c : Param) : Statement (.lt a b c) := ⟨rfl, opcodeOf_word _⟩

theorem eq (a b c : Param) : Statement (.eq a b c) := ⟨rfl, opcodeOf_word _⟩

theorem hlt : Statement .hlt := ⟨rfl, opcodeOf_word _⟩

end Sys2Proof.Laws.Layout
end

