-- ==== Sys2Proof/Laws/Step.lean ====
section
/-! SUPPORT. What each meaning, a host-supplied behaviour and a whole step can do: one inversion lemma each. -/
namespace Sys2Proof.Machine

/-- What the primitives of 46_custom_operations.md R92 leave alone, however many of them ran: the pc, the execution state, the
latch, the table and the tape's length; input is only consumed from the head, output only appended. -/
structure Frame (s u : State) : Prop where
  pc       : u.pc = s.pc
  runState : u.runState = s.runState
  fault    : u.fault = s.fault
  optable  : u.optable = s.optable
  length   : u.tape.length = s.tape.length
  inQ      : ∃ k, u.inQ = s.inQ.drop k
  outLog   : ∃ vs, u.outLog = s.outLog ++ vs

theorem Frame.refl (s : State) : Frame s s :=
  ⟨rfl, rfl, rfl, rfl, rfl, ⟨0, rfl⟩, ⟨[], by simp⟩⟩

theorem Frame.trans {s u t : State} (h : Frame s u) (k : Frame u t) : Frame s t := by
  obtain ⟨a, ha⟩ := h.inQ
  obtain ⟨b, hb⟩ := k.inQ
  obtain ⟨vs, hv⟩ := h.outLog
  obtain ⟨ws, hw⟩ := k.outLog
  exact ⟨k.pc.trans h.pc, k.runState.trans h.runState, k.fault.trans h.fault, k.optable.trans h.optable,
    k.length.trans h.length, ⟨a + b, by rw [hb, ha, List.drop_drop]⟩, ⟨vs ++ ws, by rw [hw, hv, List.append_assoc]⟩⟩

theorem frame_set (s : State) (n : Nat) (v : Int) : Frame s { s with tape := s.tape.set n v } :=
  ⟨rfl, rfl, rfl, rfl, by simp, ⟨0, rfl⟩, ⟨[], by simp⟩⟩

theorem frame_memWrite {s t : State} {a v : Int} (h : s.memWrite a v = .ok t) : Frame s t := by
  obtain ⟨-, rfl⟩ := memWrite_eq_ok h
  exact frame_set ..

theorem frame_writeParam {s t : State} {p : Nat} {a : Param} {v : Int} (h : s.writeParam p a v = .ok t) : Frame s t := by
  obtain ⟨-, -, rfl⟩ := writeParam_eq_ok h
  exact frame_set ..

theorem frame_takeInput {s t : State} {v : Int} (h : s.takeInput = some (v, t)) : Frame s t := by
  obtain ⟨q, hq, rfl⟩ := takeInput_eq_some h
  exact ⟨rfl, rfl, rfl, rfl, rfl, ⟨1, by simp [hq]⟩, ⟨[], by simp⟩⟩

theorem frame_emit (s : State) (v : Int) : Frame s (s.emit v) :=
  ⟨rfl, rfl, rfl, rfl, rfl, ⟨0, rfl⟩, ⟨[v], rfl⟩⟩

/-- Whether a record tells the truth depends only on the pc, the table and the tape's length. -/
theorem truthful_congr {s u : State} (hpc : u.pc = s.pc) (ht : u.optable = s.optable) (hl : u.tape.length = s.tape.length)
    (r : FaultRecord) : r.truthful u = r.truthful s := by
  unfold FaultRecord.truthful State.InBounds
  rw [hpc, ht, hl]

/-! The meanings. -/

theorem threeOperand_cases {f : Int → Int → Int} {a b c : Param} {s t : State} (h : threeOperand f a b c s = .next t) :
    (∃ e, s.value a = .error e ∧ t = s.raise e) ∨
    (∃ va e, s.value a = .ok va ∧ s.value b = .error e ∧ t = s.raise e) ∨
    (∃ va vb e, s.value a = .ok va ∧ s.value b = .ok vb ∧ s.writeParam 2 c (f va vb) = .error e ∧ t = s.raise e) ∨
    (∃ va vb u, s.value a = .ok va ∧ s.value b = .ok vb ∧ s.writeParam 2 c (f va vb) = .ok u ∧
      t = u.applySignal 3 .advance) := by
  unfold threeOperand at h
  cases ha : s.value a with
  | error e => simp only [ha, Host.Outcome.next.injEq] at h; exact .inl ⟨e, rfl, h.symm⟩
  | ok va =>
    cases hb : s.value b with
    | error e => simp only [ha, hb, Host.Outcome.next.injEq] at h; exact .inr (.inl ⟨va, e, rfl, rfl, h.symm⟩)
    | ok vb =>
      cases hw : s.writeParam 2 c (f va vb) with
      | error e =>
        simp only [ha, hb, hw, Host.Outcome.next.injEq] at h
        exact .inr (.inr (.inl ⟨va, vb, e, rfl, rfl, hw, h.symm⟩))
      | ok u =>
        simp only [ha, hb, hw, Host.Outcome.next.injEq] at h
        exact .inr (.inr (.inr ⟨va, vb, u, rfl, rfl, hw, h.symm⟩))

theorem execInput_cases {a : Param} {s t : State} (h : execInput a s = .next t) :
    (s.inQ = [] ∧ t = s) ∨
    (∃ v q, s.inQ = v :: q ∧
      ((∃ e, ({ s with inQ := q } : State).writeParam 0 a v = .error e ∧ t = ({ s with inQ := q } : State).raise e) ∨
       (∃ u, ({ s with inQ := q } : State).writeParam 0 a v = .ok u ∧ t = u.applySignal 1 .advance))) := by
  unfold execInput at h
  cases hi : s.takeInput with
  | none =>
    simp only [hi, Host.Outcome.next.injEq] at h
    exact .inl ⟨(takeInput_eq_none_iff s).1 hi, h.symm⟩
  | some p =>
    obtain ⟨v, u⟩ := p
    obtain ⟨q, hq, rfl⟩ := takeInput_eq_some hi
    cases hw : ({ s with inQ := q } : State).writeParam 0 a v with
    | error e =>
      simp only [hi, hw, Host.Outcome.next.injEq] at h
      exact .inr ⟨v, q, hq, .inl ⟨e, hw, h.symm⟩⟩
    | ok u =>
      simp only [hi, hw, Host.Outcome.next.injEq] at h
      exact .inr ⟨v, q, hq, .inr ⟨u, hw, h.symm⟩⟩

theorem execOutput_cases {a : Param} {s t : State} (h : execOutput a s = .next t) :
    (∃ e, s.value a = .error e ∧ t = s.raise e) ∨
    (∃ va, s.value a = .ok va ∧ t = (s.emit va).applySignal 1 .advance) := by
  unfold execOutput at h
  cases ha : s.value a with
  | error e => simp only [ha, Host.Outcome.next.injEq] at h; exact .inl ⟨e, rfl, h.symm⟩
  | ok va => simp only [ha, Host.Outcome.next.injEq] at h; exact .inr ⟨va, rfl, h.symm⟩

theorem conditionalJump_cases {taken : Int → Bool} {a b : Param} {s t : State} (h : conditionalJump taken a b s = .next t) :
    (∃ e, s.value a = .error e ∧ t = s.raise e) ∨
    (∃ va e, s.value a = .ok va ∧ s.value b = .error e ∧ t = s.raise e) ∨
    (∃ va vb, s.value a = .ok va ∧ s.value b = .ok vb ∧
      t = s.applySignal 2 (if taken va then .jump vb else .advance)) := by
  unfold conditionalJump at h
  cases ha : s.value a with
  | error e => simp only [ha, Host.Outcome.next.injEq] at h; exact .inl ⟨e, rfl, h.symm⟩
  | ok va =>
    cases hb : s.value b with
    | error e => simp only [ha, hb, Host.Outcome.next.injEq] at h; exact .inr (.inl ⟨va, e, rfl, rfl, h.symm⟩)
    | ok vb => simp only [ha, hb, Host.Outcome.next.injEq] at h; exact .inr (.inr ⟨va, vb, rfl, rfl, h.symm⟩)

/-! Faults the operands raise are truthful. -/

theorem truthful_outOfBounds {s : State} {a : Int} (h : ¬ s.InBounds a) (tag : AccessTag) :
    (⟨.outOfBounds a tag, s.pc⟩ : FaultRecord).truthful s = true := by
  simp only [FaultRecord.truthful, h, decide_false, beq_self_eq_true, Bool.not_false, Bool.and_self]

theorem truthful_value_error {s : State} {a : Param} {e : Fault} (h : s.value a = .error e) :
    (⟨e, s.pc⟩ : FaultRecord).truthful s = true := by
  obtain ⟨-, rfl, hb⟩ := value_eq_error h
  exact truthful_outOfBounds hb _

theorem truthful_memRead_error {s : State} {a : Int} {e : Fault} (h : s.memRead a = .error e) :
    (⟨e, s.pc⟩ : FaultRecord).truthful s = true := by
  obtain ⟨rfl, hb⟩ := memRead_eq_error h
  exact truthful_outOfBounds hb _

theorem truthful_memWrite_error {s : State} {a v : Int} {e : Fault} (h : s.memWrite a v = .error e) :
    (⟨e, s.pc⟩ : FaultRecord).truthful s = true := by
  obtain ⟨rfl, hb⟩ := memWrite_eq_error h
  exact truthful_outOfBounds hb _

theorem truthful_writeParam_error {s : State} {p : Nat} {a : Param} {v : Int} {e : Fault} (hp : p < 3)
    (h : s.writeParam p a v = .error e) : (⟨e, s.pc⟩ : FaultRecord).truthful s = true := by
  obtain ⟨-, rfl⟩ | ⟨-, rfl, hb⟩ := writeParam_eq_error h
  · simpa [FaultRecord.truthful] using hp
  · exact truthful_outOfBounds hb _

/-- All an operation can do once it runs: it is held and nothing changes; or its primitives lead to `u` and one of them raises
a truthful fault there; or they lead to `u` and a signal of its arity is applied. -/
inductive Effect (arity : Nat) (s : State) : State → Prop where
  | held : Effect arity s s
  | raised (u : State) (f : Fault) (hf : Frame s u) (ht : (⟨f, u.pc⟩ : FaultRecord).truthful u = true) : Effect arity s (u.raise f)
  | signalled (u : State) (sig : Signal) (hf : Frame s u) : Effect arity s (u.applySignal arity sig)

theorem threeOperand_effect {f : Int → Int → Int} {a b c : Param} {s t : State} (h : threeOperand f a b c s = .next t) :
    Effect 3 s t := by
  obtain ⟨e, ha, rfl⟩ | ⟨va, e, -, hb, rfl⟩ | ⟨va, vb, e, -, -, hw, rfl⟩ | ⟨va, vb, u, -, -, hw, rfl⟩ := threeOperand_cases h
  · exact .raised s e (.refl s) (truthful_value_error ha)
  · exact .raised s e (.refl s) (truthful_value_error hb)
  · exact .raised s e (.refl s) (truthful_writeParam_error (by decide) hw)
  · exact .signalled u _ (frame_writeParam hw)

theorem conditionalJump_effect {taken : Int → Bool} {a b : Param} {s t : State}
    (h : conditionalJump taken a b s = .next t) : Effect 2 s t := by
  obtain ⟨e, ha, rfl⟩ | ⟨va, e, -, hb, rfl⟩ | ⟨va, vb, -, -, rfl⟩ := conditionalJump_cases h
  · exact .raised s e (.refl s) (truthful_value_error ha)
  · exact .raised s e (.refl s) (truthful_value_error hb)
  · exact .signalled s _ (.refl s)

theorem execInput_effect {a : Param} {s t : State} (h : execInput a s = .next t) : Effect 1 s t := by
  obtain ⟨-, rfl⟩ | ⟨v, q, hq, ⟨e, hw, rfl⟩ | ⟨u, hw, rfl⟩⟩ := execInput_cases h
  · exact .held
  · have hf : Frame s { s with inQ := q } := ⟨rfl, rfl, rfl, rfl, rfl, ⟨1, by simp [hq]⟩, ⟨[], by simp⟩⟩
    exact .raised _ e hf (truthful_writeParam_error (by decide) hw)
  · have hf : Frame s { s with inQ := q } := ⟨rfl, rfl, rfl, rfl, rfl, ⟨1, by simp [hq]⟩, ⟨[], by simp⟩⟩
    exact .signalled u _ (hf.trans (frame_writeParam hw))

theorem execOutput_effect {a : Param} {s t : State} (h : execOutput a s = .next t) : Effect 1 s t := by
  obtain ⟨e, ha, rfl⟩ | ⟨va, -, rfl⟩ := execOutput_cases h
  · exact .raised s e (.refl s) (truthful_value_error ha)
  · exact .signalled _ _ (frame_emit s va)

theorem exec_effect {i : Instr} {s t : State} (h : exec i s = .next t) : Effect i.op.arity s t := by
  cases i with
  | add a b c => exact threeOperand_effect h
  | mul a b c => exact threeOperand_effect h
  | input a => exact execInput_effect h
  | output a => exact execOutput_effect h
  | jt a b => exact conditionalJump_effect h
  | jf a b => exact conditionalJump_effect h
  | lt a b c => exact threeOperand_effect h
  | eq a b c => exact threeOperand_effect h
  | hlt =>
    simp only [exec, execHlt, Host.Outcome.next.injEq] at h
    subst h
    exact .signalled s .halt (.refl s)

/-! Host-supplied behaviours. -/

/-- What a behaviour's progress says of the state it reached from `s`. -/
def Progress.Sound (s : State) : Progress → Prop
  | .going _ u => Frame s u
  | .done _ u => Frame s u
  | .raised f u => Frame s u ∧ (⟨f, u.pc⟩ : FaultRecord).truthful u = true
  | .held => True

theorem Progress.Sound.trans {s u : State} (h : Frame s u) : ∀ {p : Progress}, p.Sound u → p.Sound s
  | .going _ _, hp => Frame.trans h hp
  | .done _ _, hp => Frame.trans h hp
  | .raised _ _, hp => ⟨h.trans hp.1, hp.2⟩
  | .held, _ => trivial

@[simp] theorem andThen_going (env : Env) (s : State) (k : Env → State → Option Progress) :
    Progress.andThen (some (.going env s)) k = k env s := rfl

@[simp] theorem andThen_done (sig : Signal) (s : State) (k : Env → State → Option Progress) :
    Progress.andThen (some (.done sig s)) k = some (.done sig s) := rfl

@[simp] theorem andThen_raised (f : Fault) (s : State) (k : Env → State → Option Progress) :
    Progress.andThen (some (.raised f s)) k = some (.raised f s) := rfl

@[simp] theorem andThen_held (k : Env → State → Option Progress) : Progress.andThen (some .held) k = some .held := rfl

@[simp] theorem andThen_none (k : Env → State → Option Progress) : Progress.andThen none k = none := rfl

/-- Every answer is sound. -/
def SoundAnswer (s : State) (o : Option Progress) : Prop := ∀ p, o = some p → p.Sound s

theorem soundAnswer_some {s : State} {p : Progress} (h : p.Sound s) : SoundAnswer s (some p) := by
  rintro q ⟨⟩
  exact h

theorem soundAnswer_none (s : State) : SoundAnswer s none := by
  rintro q ⟨⟩

theorem soundAnswer_andThen {s : State} {o : Option Progress} {k : Env → State → Option Progress} (ho : SoundAnswer s o)
    (hk : ∀ env u, SoundAnswer u (k env u)) : SoundAnswer s (Progress.andThen o k) := by
  match o, ho with
  | some (.going env u), ho => exact fun p hp => Progress.Sound.trans (ho _ rfl) (hk env u p hp)
  | some (.done _ _), ho | some (.raised _ _), ho | some .held, ho | none, ho => exact ho

theorem iterateBody_sound {f : Env → State → Option Progress} (hf : ∀ env s, SoundAnswer s (f env s)) :
    ∀ n env s, SoundAnswer s (iterateBody f n env s)
  | 0, _, s => soundAnswer_some (Frame.refl s)
  | n + 1, env, s => soundAnswer_andThen (hf env s) (iterateBody_sound hf n)

theorem iterateWhile_sound {test : Env → Bool} {f : Env → State → Option Progress} (hf : ∀ env s, SoundAnswer s (f env s)) :
    ∀ n env s, SoundAnswer s (iterateWhile test f n env s)
  | 0, env, s => by
    unfold iterateWhile
    split
    · exact soundAnswer_none s
    · exact soundAnswer_some (Frame.refl s)
  | n + 1, env, s => by
    unfold iterateWhile
    split
    · exact soundAnswer_andThen (hf env s) (iterateWhile_sound hf n)
    · exact soundAnswer_some (Frame.refl s)

theorem runCmd_sound (n : Nat) (l : Latched) (arity : Nat) (ha : arity ≤ 3) :
    ∀ (c : Cmd), c.wf arity = true → ∀ env s, SoundAnswer s (runCmd n l c env s)
  | .skip, _, _, s => soundAnswer_some (Frame.refl s)
  | .seq c d, hw, env, s => by
    simp only [Cmd.wf, Bool.and_eq_true] at hw
    exact soundAnswer_andThen (runCmd_sound n l arity ha c hw.1 env s) (runCmd_sound n l arity ha d hw.2)
  | .assign _ _, _, _, s => soundAnswer_some (Frame.refl s)
  | .value x p, _, env, s => by
    unfold runCmd
    cases hv : s.value (paramAt l.params p) with
    | ok v => exact soundAnswer_some (Frame.refl s)
    | error e => exact soundAnswer_some ⟨Frame.refl s, truthful_value_error hv⟩
  | .writeParam p e, hw, env, s => by
    simp only [Cmd.wf, Bool.and_eq_true, decide_eq_true_eq] at hw
    unfold runCmd
    cases hv : s.writeParam p (paramAt l.params p) (evalExpr l env e) with
    | ok t => exact soundAnswer_some (frame_writeParam hv)
    | error f => exact soundAnswer_some ⟨Frame.refl s, truthful_writeParam_error (by omega) hv⟩
  | .memRead x addr, _, env, s => by
    unfold runCmd
    cases hv : s.memRead (evalExpr l env addr) with
    | ok v => exact soundAnswer_some (Frame.refl s)
    | error e => exact soundAnswer_some ⟨Frame.refl s, truthful_memRead_error hv⟩
  | .memWrite addr e, _, env, s => by
    unfold runCmd
    cases hv : s.memWrite (evalExpr l env addr) (evalExpr l env e) with
    | ok t => exact soundAnswer_some (frame_memWrite hv)
    | error f => exact soundAnswer_some ⟨Frame.refl s, truthful_memWrite_error hv⟩
  | .inputReady _, _, _, s => soundAnswer_some (Frame.refl s)
  | .input x, _, env, s => by
    unfold runCmd
    cases hv : s.takeInput with
    | none => exact soundAnswer_some trivial
    | some p => exact soundAnswer_some (frame_takeInput hv)
  | .output e, _, env, s => soundAnswer_some (frame_emit s _)
  | .ite e c d, hw, env, s => by
    simp only [Cmd.wf, Bool.and_eq_true] at hw
    unfold runCmd
    split
    · exact runCmd_sound n l arity ha c hw.1.2 env s
    · exact runCmd_sound n l arity ha d hw.2 env s
  | .loop e c, hw, env, s => by
    simp only [Cmd.wf, Bool.and_eq_true] at hw
    exact iterateBody_sound (runCmd_sound n l arity ha c hw.2) _ env s
  | .whileDo e c, hw, env, s => by
    simp only [Cmd.wf, Bool.and_eq_true] at hw
    exact iterateWhile_sound (runCmd_sound n l arity ha c hw.2) _ env s
  | .ret _, _, _, s => soundAnswer_some (Frame.refl s)

/-! A larger allowance answers what a smaller one answered. -/

theorem andThen_mono {o o' : Option Progress} {k k' : Env → State → Option Progress} (ho : ∀ p, o = some p → o' = some p)
    (hk : ∀ env u p, k env u = some p → k' env u = some p) (q : Progress) (h : Progress.andThen o k = some q) :
    Progress.andThen o' k' = some q := by
  match o, ho, h with
  | some (.going env u), ho, h => rw [ho _ rfl]; exact hk env u q h
  | some (.done _ _), ho, h | some (.raised _ _), ho, h | some .held, ho, h => rw [ho _ rfl]; exact h
  | none, _, h => cases h

theorem iterateBody_mono {f f' : Env → State → Option Progress} (hf : ∀ env s p, f env s = some p → f' env s = some p) :
    ∀ k env s p, iterateBody f k env s = some p → iterateBody f' k env s = some p
  | 0, _, _, _, h => h
  | k + 1, env, s, p, h => andThen_mono (hf env s) (iterateBody_mono hf k) p h

theorem iterateWhile_mono {test : Env → Bool} {f f' : Env → State → Option Progress}
    (hf : ∀ env s p, f env s = some p → f' env s = some p) :
    ∀ n m, n ≤ m → ∀ env s p, iterateWhile test f n env s = some p → iterateWhile test f' m env s = some p
  | 0, 0, _, _, _, _, h => h
  | 0, m + 1, _, env, s, p, h => by
    simp only [iterateWhile] at h ⊢
    split at h
    · cases h
    · rename_i ht
      rw [if_neg ht]
      exact h
  | n + 1, m + 1, hm, env, s, p, h => by
    simp only [iterateWhile] at h ⊢
    split at h
    · rename_i ht
      rw [if_pos ht]
      exact andThen_mono (hf env s) (iterateWhile_mono hf n m (by omega)) p h
    · rename_i ht
      rw [if_neg ht]
      exact h

theorem runCmd_mono {n m : Nat} (hm : n ≤ m) (l : Latched) :
    ∀ (c : Cmd) env s p, runCmd n l c env s = some p → runCmd m l c env s = some p
  | .skip, _, _, _, h | .assign _ _, _, _, _, h | .value _ _, _, _, _, h | .writeParam _ _, _, _, _, h
  | .memRead _ _, _, _, _, h | .memWrite _ _, _, _, _, h | .inputReady _, _, _, _, h | .input _, _, _, _, h
  | .output _, _, _, _, h | .ret _, _, _, _, h => h
  | .seq c d, env, s, p, h => andThen_mono (runCmd_mono hm l c env s) (runCmd_mono hm l d) p h
  | .ite e c d, env, s, p, h => by
    simp only [runCmd] at h ⊢
    split at h
    · rename_i ht
      rw [if_pos ht]
      exact runCmd_mono hm l c env s p h
    · rename_i ht
      rw [if_neg ht]
      exact runCmd_mono hm l d env s p h
  | .loop e c, env, s, p, h => iterateBody_mono (runCmd_mono hm l c) _ env s p h
  | .whileDo e c, env, s, p, h => iterateWhile_mono (runCmd_mono hm l c) n m hm env s p h

theorem firstAnswer_some {f : Nat → Option Progress} {n : Nat} {p : Progress} (h : firstAnswer f n = some p) :
    ∃ k, f k = some p := by
  refine firstAnswer.partial_correctness f (fun _ q => ∃ k, f k = some q) ?_ n p h
  intro rec ih n q hq
  split at hq
  · exact ⟨n, by simp_all⟩
  · exact ih _ _ hq

theorem firstAnswer_of_some {f : Nat → Option Progress} (hm : ∀ n m p, n ≤ m → f n = some p → f m = some p) {p : Progress} :
    ∀ k n, f (n + k) = some p → firstAnswer f n = some p
  | 0, n, h => by rw [firstAnswer, show f n = some p from h]
  | k + 1, n, h => by
    rw [firstAnswer]
    cases hn : f n with
    | some q =>
      have : some q = some p := (hm n (n + (k + 1)) q (by omega) hn).symm.trans h
      simpa using this
    | none => exact firstAnswer_of_some hm k (n + 1) (by rw [← h]; congr 1; omega)

/-- A behaviour ends one way exactly when some allowance shows it ending so. -/
theorem behave_eq_some_iff {l : Latched} {c : Cmd} {s : State} {p : Progress} :
    behave l c s = some p ↔ ∃ n, runCmd n l c [] s = some p := by
  have hm : ∀ n m q, n ≤ m → runCmd n l c [] s = some q → runCmd m l c [] s = some q :=
    fun n m q h => runCmd_mono h l c [] s q
  unfold behave
  constructor
  · intro h
    split at h
    · exact ⟨0, by simp_all⟩
    · exact firstAnswer_some h
  · rintro ⟨n, h⟩
    split
    · rename_i q hq
      exact (hm 0 n q (by omega) hq).symm.trans h
    · exact firstAnswer_of_some hm n 1 (hm n _ p (by omega) h)

theorem behave_eq_none_iff {l : Latched} {c : Cmd} {s : State} : behave l c s = none ↔ ∀ n, runCmd n l c [] s = none := by
  simp only [Option.eq_none_iff_forall_ne_some, ne_eq, behave_eq_some_iff, not_exists]
  exact forall_comm

theorem behave_sound {l : Latched} {arity : Nat} (ha : arity ≤ 3) {c : Cmd} (hw : c.wf arity = true) (s : State) :
    SoundAnswer s (behave l c s) := by
  intro p h
  obtain ⟨n, hn⟩ := behave_eq_some_iff.1 h
  exact runCmd_sound n l arity ha c hw [] s p hn

/-! A body without `whileDo` ends at once. -/

theorem andThen_answers {o : Option Progress} {k : Env → State → Option Progress} (ho : ∃ p, o = some p)
    (hk : ∀ env u, ∃ p, k env u = some p) : ∃ p, Progress.andThen o k = some p := by
  obtain ⟨p, rfl⟩ := ho
  cases p with
  | going env u => exact hk env u
  | done sig u => exact ⟨_, rfl⟩
  | raised f u => exact ⟨_, rfl⟩
  | held => exact ⟨_, rfl⟩

theorem iterateBody_answers {f : Env → State → Option Progress} (hf : ∀ env s, ∃ p, f env s = some p) :
    ∀ n env s, ∃ p, iterateBody f n env s = some p
  | 0, _, _ => ⟨_, rfl⟩
  | n + 1, env, s => andThen_answers (hf env s) (iterateBody_answers hf n)

theorem runCmd_whileFree (l : Latched) :
    ∀ (c : Cmd), c.whileFree = true → ∀ env s, ∃ p, runCmd 0 l c env s = some p
  | .skip, _, _, _ | .assign _ _, _, _, _ | .inputReady _, _, _, _ | .output _, _, _, _ | .ret _, _, _, _ => ⟨_, rfl⟩
  | .value x p, _, env, s => by unfold runCmd; cases s.value (paramAt l.params p) <;> exact ⟨_, rfl⟩
  | .writeParam p e, _, env, s => by
    unfold runCmd
    cases s.writeParam p (paramAt l.params p) (evalExpr l env e) <;> exact ⟨_, rfl⟩
  | .memRead x addr, _, env, s => by unfold runCmd; cases s.memRead (evalExpr l env addr) <;> exact ⟨_, rfl⟩
  | .memWrite addr e, _, env, s => by
    unfold runCmd
    cases s.memWrite (evalExpr l env addr) (evalExpr l env e) <;> exact ⟨_, rfl⟩
  | .input x, _, env, s => by unfold runCmd; cases s.takeInput <;> exact ⟨_, rfl⟩
  | .seq c d, h, env, s => by
    simp only [Cmd.whileFree, Bool.and_eq_true] at h
    exact andThen_answers (runCmd_whileFree l c h.1 env s) (runCmd_whileFree l d h.2)
  | .ite e c d, h, env, s => by
    simp only [Cmd.whileFree, Bool.and_eq_true] at h
    unfold runCmd
    split
    · exact runCmd_whileFree l c h.1 env s
    · exact runCmd_whileFree l d h.2 env s
  | .loop e c, h, env, s => iterateBody_answers (runCmd_whileFree l c h) _ env s
  | .whileDo _ _, h, _, _ => by simp [Cmd.whileFree] at h

theorem terminates_of_whileFree {h : HostOp} (hf : h.body.whileFree = true) : Terminates h := by
  intro l s _
  obtain ⟨p, hp⟩ := runCmd_whileFree l h.body hf [] s
  exact ⟨p, behave_eq_some_iff.2 ⟨0, hp⟩⟩

theorem defaultTable_terminates : TableTerminates defaultTable := by
  intro o h hl
  obtain ⟨_, he, -⟩ := lookup_default_some hl
  cases he

theorem hostOp_wf {h : HostOp} (hw : h.wf = true) : h.arity ≤ 3 ∧ h.body.wf h.arity = true ∧ h.final.wf h.arity = true := by
  simpa [HostOp.wf, and_assoc] using hw

/-- What ends a behaviour ends its step. -/
theorem execHosted_of_behave {h : HostOp} (hw : h.wf = true) {w : Int} {ps : List Param} {s : State} {p : Progress}
    (hb : behave ⟨s.pc, w, ps⟩ h.body s = some p) : execHosted h w ps s = .next (finishHosted h ⟨s.pc, w, ps⟩ s p) := by
  simp [execHosted, hw, hb]

theorem execHosted_of_runCmd {h : HostOp} (hw : h.wf = true) {w : Int} {ps : List Param} {s : State} {p : Progress} (n : Nat)
    (hr : runCmd n ⟨s.pc, w, ps⟩ h.body [] s = some p) : execHosted h w ps s = .next (finishHosted h ⟨s.pc, w, ps⟩ s p) :=
  execHosted_of_behave hw (behave_eq_some_iff.2 ⟨n, hr⟩)

/-- The three answers of the step of a host-supplied operation. -/
theorem execHosted_cases (h : HostOp) (w : Int) (ps : List Param) (s : State) :
    (h.wf = false ∧ execHosted h w ps s = .refused .illFormedOperation) ∨
    (h.wf = true ∧ behave ⟨s.pc, w, ps⟩ h.body s = none ∧ execHosted h w ps s = .refused .endlessBehaviour) ∨
    (h.wf = true ∧ ∃ p, behave ⟨s.pc, w, ps⟩ h.body s = some p ∧
      execHosted h w ps s = .next (finishHosted h ⟨s.pc, w, ps⟩ s p)) := by
  cases hw : h.wf with
  | false => exact .inl ⟨rfl, by simp [execHosted, hw]⟩
  | true =>
    cases hb : behave ⟨s.pc, w, ps⟩ h.body s with
    | none => exact .inr (.inl ⟨rfl, rfl, by simp [execHosted, hw, hb]⟩)
    | some p => exact .inr (.inr ⟨rfl, p, rfl, execHosted_of_behave hw hb⟩)

theorem finishHosted_effect {h : HostOp} {l : Latched} {s : State} {p : Progress} (hp : p.Sound s) :
    Effect h.arity s (finishHosted h l s p) := by
  cases p with
  | going env u => exact .signalled u _ hp
  | done sig u => exact .signalled u _ hp
  | raised f u => exact .raised u f hp.1 hp.2
  | held => exact .held

theorem execHosted_effect {h : HostOp} {w : Int} {ps : List Param} {s t : State} (he : execHosted h w ps s = .next t) :
    Effect h.arity s t := by
  obtain ⟨-, hr⟩ | ⟨-, -, hr⟩ | ⟨hw, p, hp, hr⟩ := execHosted_cases h w ps s
  · simp [hr] at he
  · simp [hr] at he
  · rw [hr, Host.Outcome.next.injEq] at he
    exact he ▸ finishHosted_effect (behave_sound (hostOp_wf hw).1 (hostOp_wf hw).2.1 s p hp)

/-- An operation that is accepted and ends always answers a next state. -/
theorem execHosted_next {h : HostOp} (hw : h.wf = true) (ht : Terminates h) (w : Int) (ps : List Param)
    (hl : ps.length = h.arity) (s : State) : ∃ t, execHosted h w ps s = .next t := by
  obtain ⟨p, hp⟩ := ht ⟨s.pc, w, ps⟩ s hl
  exact ⟨_, execHosted_of_behave hw hp⟩

theorem setc_wf (k : Int) : (setc k).wf = true := rfl

theorem nop0_wf : nop0.wf = true := rfl

theorem ins_wf : ins.wf = true := rfl

theorem pseudocode_wf (op : OpName) : (pseudocode op).wf = true := by cases op <;> rfl

/-! The whole step. -/

theorem decodeModes_error {w n p : Nat} {e : DecodeError} (h : decodeModes w n p = .error e) :
    ∃ q d, e = .invalidMode q d ∧ p ≤ q ∧ q < p + n ∧ 2 ≤ d ∧ d ≤ 9 := by
  induction n generalizing p e with
  | zero => simp [decodeModes] at h
  | succ n ih =>
    have hd : digit w (p + 2) < 10 := Nat.mod_lt _ (by decide)
    unfold decodeModes at h
    split at h
    · cases hr : decodeModes w n (p + 1) with
      | ok ms => simp [hr, Except.map] at h
      | error e' =>
        simp only [hr, Except.map, Except.error.injEq] at h
        obtain ⟨q, d, rfl, h1, h2, h3⟩ := ih hr
        exact ⟨q, d, h.symm, by omega, by omega, h3⟩
    · cases hr : decodeModes w n (p + 1) with
      | ok ms => simp [hr, Except.map] at h
      | error e' =>
        simp only [hr, Except.map, Except.error.injEq] at h
        obtain ⟨q, d, rfl, h1, h2, h3⟩ := ih hr
        exact ⟨q, d, h.symm, by omega, by omega, h3⟩
    · rename_i h0 h1
      have h0' : digit w (p + 2) ≠ 0 := h0
      have h1' : digit w (p + 2) ≠ 1 := h1
      simp only [Except.error.injEq] at h
      exact ⟨p, _, h.symm, le_refl p, by omega, by omega, by omega⟩

theorem decodeModes_length {w n p : Nat} {ms : List Mode} (h : decodeModes w n p = .ok ms) : ms.length = n := by
  induction n generalizing p ms with
  | zero =>
    simp only [decodeModes, Except.ok.injEq] at h
    simp [← h]
  | succ n ih =>
    unfold decodeModes at h
    split at h
    · cases hr : decodeModes w n (p + 1) with
      | ok ms' =>
        simp only [hr, Except.map, Except.ok.injEq] at h
        simp [← h, ih hr]
      | error e' => simp [hr, Except.map] at h
    · cases hr : decodeModes w n (p + 1) with
      | ok ms' =>
        simp only [hr, Except.map, Except.ok.injEq] at h
        simp [← h, ih hr]
      | error e' => simp [hr, Except.map] at h
    · simp at h

/-- The parameter fetch fails exactly at the first position that has no cell. -/
theorem takeParams_error {p : Nat} {ms : List Mode} {cells : List Int} {e : DecodeError}
    (h : takeParams p ms cells = .error e) : e = .missingParameter (p + cells.length) := by
  induction ms generalizing p cells e with
  | nil => simp [takeParams] at h
  | cons m ms ih =>
    cases cells with
    | nil => simpa [takeParams] using h.symm
    | cons v cells =>
      unfold takeParams at h
      cases hr : takeParams (p + 1) ms cells with
      | ok r => simp [hr, Except.map] at h
      | error e' =>
        simp only [hr, Except.map, Except.error.injEq] at h
        rw [← h, ih hr]
        simp only [List.length_cons, DecodeError.missingParameter.injEq]
        omega

theorem lookupOp_wf {t : OpTable} {o : Int} {op : Operation} (hw : (t.all fun e => e.2.wf) = true)
    (h : lookupOp t o = some op) : op.wf = true := by
  induction t with
  | nil => simp [lookupOp] at h
  | cons e t ih =>
    obtain ⟨k, op'⟩ := e
    simp only [List.all_cons, Bool.and_eq_true] at hw
    unfold lookupOp at h
    split at h
    · simp only [Option.some.injEq] at h
      exact h ▸ hw.1
    · exact ih hw.2 h

theorem tableWf_all {t : OpTable} (h : OpTable.wf t = true) : (t.all fun e => e.2.wf) = true := by
  simp only [OpTable.wf, Bool.and_eq_true] at h
  exact h.2

theorem operation_arity_le {op : Operation} (h : op.wf = true) : op.arity ≤ 3 := by
  cases op with
  | default o => cases o <;> decide
  | hosted h' => exact (hostOp_wf h).1

/-- Why a word decodes to nothing. -/
theorem decodeWord_error {t : OpTable} {w : Int} {e : DecodeError} (h : decodeWord t w = .error e) :
    (w < 0 ∧ e = .negativeWord w) ∨
    (0 ≤ w ∧ lookupOp t (opcodeOf w.toNat) = none ∧ e = .unboundOpcode (opcodeOf w.toNat)) ∨
    (0 ≤ w ∧ ∃ op q d, lookupOp t (opcodeOf w.toNat) = some op ∧ e = .invalidMode q d ∧ q < op.arity ∧ 2 ≤ d ∧ d ≤ 9) := by
  unfold decodeWord at h
  by_cases hw : w < 0
  · simp only [hw, if_true, Except.error.injEq] at h
    exact .inl ⟨hw, h.symm⟩
  · simp only [hw, if_false] at h
    cases hl : lookupOp t (opcodeOf w.toNat) with
    | none =>
      simp only [hl, Except.error.injEq] at h
      exact .inr (.inl ⟨by omega, rfl, h.symm⟩)
    | some op =>
      simp only [hl] at h
      cases hm : decodeModes w.toNat op.arity 0 with
      | ok ms => simp [hm, Except.map] at h
      | error e' =>
        simp only [hm, Except.map, Except.error.injEq] at h
        obtain ⟨q, d, rfl, -, h2, h3, h4⟩ := decodeModes_error hm
        exact .inr (.inr ⟨by omega, op, q, d, rfl, h.symm, by omega, h3, h4⟩)

theorem decodeWord_ok {t : OpTable} {w : Int} {op : Operation} {ms : List Mode} (h : decodeWord t w = .ok (op, ms)) :
    0 ≤ w ∧ lookupOp t (opcodeOf w.toNat) = some op ∧ decodeModes w.toNat op.arity 0 = .ok ms := by
  unfold decodeWord at h
  by_cases hw : w < 0
  · simp [hw] at h
  · simp only [hw, if_false] at h
    cases hl : lookupOp t (opcodeOf w.toNat) with
    | none => simp [hl] at h
    | some op' =>
      simp only [hl] at h
      cases hm : decodeModes w.toNat op'.arity 0 with
      | error e' => simp [hm, Except.map] at h
      | ok ms' =>
        simp only [hm, Except.map, Except.ok.injEq, Prod.mk.injEq] at h
        obtain ⟨rfl, rfl⟩ := h
        exact ⟨by omega, rfl, hm⟩

/-- What a successful decode says of a host-supplied operation: it is one of the table's own, with as many parameters as its
arity. -/
theorem decodeCells_hosted {t : OpTable} {cells rest : List Int} {h : HostOp} {w : Int} {ps : List Param}
    (hd : decodeCells t cells = .ok (.hosted h w ps, rest)) :
    lookupOp t (opcodeOf w.toNat) = some (.hosted h) ∧ ps.length = h.arity := by
  cases cells with
  | nil => simp [decodeCells] at hd
  | cons v cells =>
    unfold decodeCells at hd
    cases hw : decodeWord t v with
    | error e => simp [hw] at hd
    | ok r =>
      obtain ⟨op, ms⟩ := r
      simp only [hw] at hd
      cases hp : takeParams 0 ms cells with
      | error e => simp [hp, Except.map] at hd
      | ok r =>
        simp only [hp, Except.map, Except.ok.injEq, Prod.mk.injEq] at hd
        cases op with
        | default o => simp [Decoded.ofOperation] at hd
        | hosted h' =>
          simp only [Decoded.ofOperation, Decoded.hosted.injEq] at hd
          obtain ⟨⟨rfl, rfl, rfl⟩, rfl⟩ := hd
          refine ⟨(decodeWord_ok hw).2.1, ?_⟩
          rw [← List.length_map, (takeParams_ok hp).1, decodeModes_length (decodeWord_ok hw).2.2]
          rfl

theorem fetch_hosted {s : State} {h : HostOp} {w : Int} {ps : List Param} (hf : s.fetch = .ok (.hosted h w ps)) :
    lookupOp s.optable (opcodeOf w.toNat) = some (.hosted h) ∧ ps.length = h.arity := by
  unfold State.fetch at hf
  cases hd : decodeCells s.optable s.fetchCells with
  | error e => simp [hd] at hf
  | ok r =>
    obtain ⟨d, rest⟩ := r
    simp only [hd, Except.ok.injEq] at hf
    subst hf
    exact decodeCells_hosted hd

theorem fetchCells_nil_iff (s : State) : s.fetchCells = [] ↔ ¬ s.InBounds s.pc := by
  unfold State.fetchCells
  by_cases h : 0 ≤ s.pc
  · simp only [h, if_true, List.drop_eq_nil_iff, State.InBounds, true_and]
    omega
  · simp [h]

theorem fetchCells_length {s : State} (h : s.InBounds s.pc) :
    (s.fetchCells.length : Int) = s.tape.length - s.pc := by
  have h1 := h.1
  have h2 := h.2
  unfold State.fetchCells
  simp only [h1, if_true, List.length_drop]
  omega

/-- The fault a fetch raises is truthful. -/
theorem truthful_fetch_error {s : State} {f : Fault} (hw : OpTable.wf s.optable = true) (h : s.fetch = .error f) :
    (⟨f, s.pc⟩ : FaultRecord).truthful s = true := by
  unfold State.fetch at h
  cases hd : decodeCells s.optable s.fetchCells with
  | ok r => simp [hd] at h
  | error e =>
    simp only [hd, Except.error.injEq] at h
    subst h
    cases hc : s.fetchCells with
    | nil =>
      rw [hc] at hd
      simp only [decodeCells, Except.error.injEq] at hd
      subst hd
      have := (fetchCells_nil_iff s).1 hc
      exact truthful_outOfBounds this _
    | cons w cells =>
      have hb : s.InBounds s.pc := by
        by_contra hn
        rw [(fetchCells_nil_iff s).2 hn] at hc
        exact absurd hc (by simp)
      have hl := fetchCells_length hb
      rw [hc] at hd hl
      unfold decodeCells at hd
      cases hdw : decodeWord s.optable w with
      | error e' =>
        simp only [hdw, Except.error.injEq] at hd
        subst hd
        obtain ⟨hneg, rfl⟩ | ⟨h0, hlk, rfl⟩ | ⟨h0, op, q, d, hlk, rfl, hq, h2, h9⟩ := decodeWord_error hdw
        · simp [FaultRecord.truthful, faultOfDecode, hneg]
        · have : opcodeOf w.toNat < 100 := Nat.mod_lt _ (by decide)
          simp only [FaultRecord.truthful, faultOfDecode, hlk, Option.isNone_none, Bool.and_true, beq_self_eq_true,
            Bool.true_and, Bool.or_eq_true, decide_eq_true_eq]
          omega
        · have := operation_arity_le (lookupOp_wf (tableWf_all hw) hlk)
          simp only [FaultRecord.truthful, faultOfDecode, beq_self_eq_true, Bool.true_and, Bool.and_eq_true,
            decide_eq_true_eq]
          omega
      | ok r =>
        obtain ⟨op, ms⟩ := r
        simp only [hdw] at hd
        cases htp : takeParams 0 ms cells with
        | ok r => simp [htp, Except.map] at hd
        | error e' =>
          simp only [htp, Except.map, Except.error.injEq] at hd
          subst hd
          rw [takeParams_error htp]
          simp only [List.length_cons] at hl
          simp only [FaultRecord.truthful, faultOfDecode, State.InBounds, beq_self_eq_true, Bool.true_and,
            Bool.not_eq_true', decide_eq_false_iff_not]
          omega

/-- All a step can do: nothing, where it is not enabled; else raise the fault of its fetch, or have the effect of the operation
it fetched, whose arity is at most 3. -/
theorem step_cases {s t : State} (hw : OpTable.wf s.optable = true) (h : step s = .next t) :
    (s.enabled = false ∧ t = s) ∨ (s.enabled = true ∧ ∃ n, n ≤ 3 ∧ Effect n s t) := by
  unfold step at h
  cases he : s.enabled with
  | false =>
    simp only [he, Bool.false_eq_true, if_false, Host.Outcome.next.injEq] at h
    exact .inl ⟨rfl, h.symm⟩
  | true =>
    simp only [he, if_true] at h
    cases hf : s.fetch with
    | error f =>
      simp only [hf, Host.Outcome.next.injEq] at h
      exact .inr ⟨rfl, 0, by decide, h ▸ .raised s f (.refl s) (truthful_fetch_error hw hf)⟩
    | ok d =>
      cases d with
      | instr i =>
        simp only [hf] at h
        exact .inr ⟨rfl, _, operation_arity_le (op := .default i.op) rfl, exec_effect h⟩
      | hosted g w ps =>
        simp only [hf] at h
        have hwf : g.wf = true := by
          by_contra hn
          simp [execHosted, hn] at h
        exact .inr ⟨rfl, _, (hostOp_wf hwf).1, execHosted_effect h⟩

end Sys2Proof.Machine
end

