-- ==== Sys2Proof/Tests/Slice0.lean ====
section
/-! SUPPORT. Tests of the model against the spec's own examples and vectors (spec/95_test_vectors.md; the section of each is
named), the checks that refuse ill-formed terms, and for every statement with hypotheses a state and operands that meet them. -/
namespace Sys2Proof.Tests

open Sys2Proof.Machine

/-! ## Helpers -/

/-- A running machine with the default table. -/
def machine (tape : List Int) (pc : Int) (inQ : List Int) : State :=
  { State.reset with tape := tape, pc := pc, inQ := inQ, runState := .running }

/-- The same with another table. -/
def machineWith (t : OpTable) (tape : List Int) (inQ : List Int) : State := { machine tape 0 inQ with optable := t }

/-- The state a step answers. -/
def stepped (s : State) : Option State :=
  match step s with
  | .next t => some t
  | .fault _ => none
  | .refused _ => none

/-- The tape and the pc after a step. -/
def tapePc (s : State) : Option (List Int × Int) := (stepped s).map fun t => (t.tape, t.pc)

/-- The latch after a step, with the tape. -/
def latchTape (s : State) : Option (Option FaultRecord × List Int) := (stepped s).map fun t => (t.fault, t.tape)

/-- A position-mode parameter, written `[n]` in 30_encoding.md R57. -/
def pos (n : Int) : Param := ⟨.position, n⟩

/-- An immediate parameter, written `#n` there. -/
def imm (n : Int) : Param := ⟨.immediate, n⟩

/-! ## Decoding: words written out from 30_encoding.md R43 and R49 (95_test_vectors.md 1.1, 2.1) -/

theorem test_decode_add : decodeTableWord 32 1101 = some (.add (imm 0) (imm 0) (pos 0)) := by decide

theorem test_decode_mul : decodeTableWord 32 1002 = some (.mul (pos 0) (imm 0) (pos 0)) := by decide

theorem test_decode_input : decodeTableWord 8 3 = some (.input (pos 0)) := by decide

theorem test_decode_output : decodeTableWord 16 104 = some (.output (imm 0)) := by decide

theorem test_decode_jt : decodeTableWord 16 1005 = some (.jt (pos 0) (imm 0)) := by decide

theorem test_decode_jf : decodeTableWord 16 106 = some (.jf (imm 0) (pos 0)) := by decide

theorem test_decode_lt : decodeTableWord 16 11107 = some (.lt (imm 0) (imm 0) (imm 0)) := by decide

theorem test_decode_eq : decodeTableWord 16 108 = some (.eq (imm 0) (pos 0) (pos 0)) := by decide

theorem test_decode_hlt : decodeTableWord 8 99 = some .hlt ∧ decodeTableWord 16 20099 = some .hlt := by decide

theorem test_decode_refuses :
    [0, 9, 98, 100, 12345, 201, 2101, 21101, 903].map (decodeTableWord 32) = List.replicate 9 none := by decide

/-- 2.1: 12345 fails at dispatch, 1201 and 10201 at the lowest bad position, -1 before any lookup. -/
theorem test_decode_errors :
    decodeCells defaultTable [12345] = .error (.unboundOpcode 45) ∧
    decodeCells defaultTable [10201, 1, 1, 1] = .error (.invalidMode 0 2) ∧
    decodeCells defaultTable [1203, 1] = .error (.invalidMode 0 2) ∧
    decodeCells defaultTable [-1] = .error (.negativeWord (-1)) := ⟨rfl, rfl, rfl, rfl⟩

/-- R57: `ADD [4], #3, [4]` is `1001, 4, 3, 4`; `JT #1, #0` is `1105, 1, 0`; HLT is 99. -/
theorem test_encode :
    encode (.add (pos 4) (imm 3) (pos 4)) = [1001, 4, 3, 4] ∧ encode (.jt (imm 1) (imm 0)) = [1105, 1, 0] ∧
    encode .hlt = [99] := by decide

/-- R57: the notation itself. -/
theorem test_assembly :
    assemblyText (.add (pos 4) (imm (-3)) (pos 4)) =
      ['A', 'D', 'D', ' ', '[', '4', ']', ',', ' ', '#', '-', '3', ',', ' ', '[', '4', ']'] := by decide

/-! ## WellFormed: an ill-formed term for each check -/

theorem test_wf_arity : (HostOp.mk 4 .skip .advance).wf = false ∧ (HostOp.mk 3 .skip .advance).wf = true := by decide

theorem test_wf_body_parameter :
    (HostOp.mk 1 (.value 0 1) .advance).wf = false ∧ (HostOp.mk 1 (.value 0 0) .advance).wf = true := by decide

theorem test_wf_write_parameter : (HostOp.mk 2 (.writeParam 2 (.const 0)) .advance).wf = false := by decide

theorem test_wf_expression : (HostOp.mk 0 (.assign 0 (.raw 0)) .advance).wf = false := by decide

theorem test_wf_signal : (HostOp.mk 0 .skip (.jump (.raw 0))).wf = false := by decide

theorem test_wf_operation : Operation.wf (.hosted ⟨4, .skip, .advance⟩) = false := by decide

theorem test_wf_table_rising :
    OpTable.wf [(2, .default .mul), (1, .default .add)] = false ∧
    OpTable.wf [(1, .default .mul), (1, .default .add)] = false ∧
    OpTable.wf [(1, .default .mul), (2, .default .add)] = true := by decide

theorem test_wf_table_operations : OpTable.wf [(1, .hosted ⟨4, .skip, .advance⟩)] = false := by decide

theorem test_target_check :
    (Instr.add (pos 0) (pos 0) (imm 0)).targetOk = false ∧ (Instr.input (imm 0)).targetOk = false ∧
    (Instr.eq (imm 0) (imm 0) (pos 0)).targetOk = true := by decide

/-! ## The instructions, one step each -/

/-- 1.2, Scenario 1. -/
theorem test_add_scenario1 : tapePc (machine [1, 0, 0, 0, 99] 0 []) = some ([2, 0, 0, 0, 99], 4) := by decide

/-- 2.2: no wrap at 2^63. -/
theorem test_add_exact :
    tapePc (machine [1101, 9223372036854775807, 1, 5, 99, 0] 0 []) =
      some ([1101, 9223372036854775807, 1, 5, 99, 9223372036854775808], 4) := by decide

/-- 1.4, Scenario 3. -/
theorem test_mul_scenario3 : tapePc (machine [1002, 4, 3, 4, 33] 0 []) = some ([1002, 4, 3, 4, 99], 4) := by decide

/-- 2.3: mixed signs. -/
theorem test_mul_signs : tapePc (machine [1102, -3, 5, 5, 99, 0] 0 []) = some ([1102, -3, 5, 5, 99, -15], 4) := by decide

/-- 1.5, Scenario 4: the first instruction. -/
theorem test_in_scenario4 :
    (stepped (machine [3, 0, 4, 0, 99] 0 [7])).map (fun t => (t.tape, t.pc, t.inQ)) = some ([7, 0, 4, 0, 99], 2, []) := by
  decide

/-- 2.6: `103,3,99,0` consumes the 42 and faults. -/
theorem test_in_immediate :
    (stepped (machine [103, 3, 99, 0] 0 [42])).map (fun t => (t.fault, t.inQ, t.pc, t.tape)) =
      some (some ⟨.invalidWriteTarget 0 3, 0⟩, [], 0, [103, 3, 99, 0]) := by decide

/-- 1.5: the second instruction. -/
theorem test_out_scenario4 :
    (stepped (machine [7, 0, 4, 0, 99] 2 [])).map (fun t => (t.outLog, t.pc, t.tape)) =
      some ([7], 4, [7, 0, 4, 0, 99]) := by decide

/-- 2.6: `4,7,99` emits nothing. -/
theorem test_out_faults :
    (stepped (machine [4, 7, 99] 0 [])).map (fun t => (t.outLog, t.fault)) =
      some ([], some ⟨.outOfBounds 7 .read, 0⟩) := by decide

/-- 2.5: a negative condition is true. -/
theorem test_jt_negative : tapePc (machine [1105, -1, 4, 99, 99] 0 []) = some ([1105, -1, 4, 99, 99], 4) := by decide

/-- 2.5: the target operand of a jump not taken is resolved and faults. -/
theorem test_jt_eager :
    latchTape (machine [105, 0, 9, 99] 0 []) = some (some ⟨.outOfBounds 9 .read, 0⟩, [105, 0, 9, 99]) := by decide

/-- 2.5: JF taken on 0 and not on 5. -/
theorem test_jf :
    tapePc (machine [1106, 0, 4, 99, 99] 0 []) = some ([1106, 0, 4, 99, 99], 4) ∧
    tapePc (machine [1106, 5, 4, 99, 99] 0 []) = some ([1106, 5, 4, 99, 99], 3) := by decide

/-- 2.4: signed and strict. -/
theorem test_lt :
    tapePc (machine [1107, -1, 0, 5, 99, 7] 0 []) = some ([1107, -1, 0, 5, 99, 1], 4) ∧
    tapePc (machine [1107, 3, 3, 5, 99, 7] 0 []) = some ([1107, 3, 3, 5, 99, 0], 4) := by decide

/-- 2.4. -/
theorem test_eq :
    tapePc (machine [1108, 8, 8, 5, 99, -1] 0 []) = some ([1108, 8, 8, 5, 99, 1], 4) ∧
    tapePc (machine [1108, 8, 9, 5, 99, -1] 0 []) = some ([1108, 8, 9, 5, 99, 0], 4) := by decide

/-- 2.7: the pc stays at the HLT. -/
theorem test_hlt :
    (stepped (machine [99, 1, 2] 0 [])).map (fun t => (t.runState, t.pc)) = some (.halted, 0) := by decide

/-! ## Faults of the step, and their order (95_test_vectors.md 1.6, 2.8, 2.9) -/

theorem test_scenario5 :
    latchTape (machine [1, 5, 6, 7] 0 []) = some (some ⟨.outOfBounds 5 .read, 0⟩, [1, 5, 6, 7]) := by decide

theorem test_empty_tape : latchTape (machine [] 0 []) = some (some ⟨.outOfBounds 0 .fetch, 0⟩, []) := by decide

theorem test_negative_pc : latchTape (machine [99] (-1) []) = some (some ⟨.outOfBounds (-1) .fetch, -1⟩, [99]) := by decide

theorem test_missing_parameter :
    latchTape (machine [1101, 1] 0 []) = some (some ⟨.outOfBounds 2 .parameter, 0⟩, [1101, 1]) := by decide

theorem test_mode_before_parameter : latchTape (machine [201] 0 []) = some (some ⟨.invalidMode 0 2, 0⟩, [201]) := by decide

theorem test_negative_word : latchTape (machine [-99] 0 []) = some (some ⟨.unknownOpcode (-99), 0⟩, [-99]) := by decide

theorem test_write_mode_before_bounds :
    latchTape (machine [10001, 0, 0, 77] 0 []) =
      some (some ⟨.invalidWriteTarget 2 77, 0⟩, [10001, 0, 0, 77]) := by decide

/-! ## Host-supplied operations (95_test_vectors.md 2.10, 1.7) -/

theorem test_setc :
    (stepped (machineWith (overrideOp defaultTable 3 (.hosted (setc 5))) [3, 0, 4, 0, 99] [7])).map
      (fun t => (t.tape, t.pc, t.inQ)) = some ([5, 0, 4, 0, 99], 2, [7]) := by decide

theorem test_ins_suspends :
    (stepped (machineWith (overrideOp defaultTable 3 (.hosted ins)) [3, 0, 4, 0, 99] [])).map
      (fun t => (t.tape, t.pc, t.runState)) = some ([3, 0, 4, 0, 99], 0, .suspended) := by decide

theorem test_nop0 :
    tapePc (machineWith (overrideOp defaultTable 50 (.hosted nop0)) [50, 50, 99] []) = some ([50, 50, 99], 1) := by decide

/-- An override changes the length: opcode 1 bound to SETC(5) occupies two cells. -/
theorem test_override_changes_arity :
    tapePc (machineWith (overrideOp defaultTable 1 (.hosted (setc 5))) [1, 3, 99, 0] []) = some ([1, 3, 99, 5], 2) := by decide

/-- R109: what a host-supplied behaviour did before its fault stays done. -/
theorem test_hosted_partial_effect :
    (stepped (machineWith (overrideOp defaultTable 50
      (.hosted ⟨0, .seq (.output (.const 4)) (.memWrite (.const 9) (.const 1)), .advance⟩)) [50] [])).map
      (fun t => (t.outLog, t.fault, t.pc)) = some ([4], some ⟨.outOfBounds 9 .write, 0⟩, 0) := by decide

/-- R59: a held step has changed no state, whatever it would have done before `Input()`. -/
theorem test_hosted_held :
    (stepped (machineWith (overrideOp defaultTable 50 (.hosted ⟨0, .seq (.output (.const 4)) (.input 0), .advance⟩)) [50] [])).map
      (fun t => (t.outLog, t.pc)) = some ([], 0) := by decide

/-- A behaviour with a loop: it emits its parameter three times and halts. -/
theorem test_hosted_loop :
    (stepped (machineWith (overrideOp defaultTable 50 (.hosted ⟨1, .loop (.const 3) (.output (.raw 0)), .halt⟩)) [50, 8] [])).map
      (fun t => (t.outLog, t.pc, t.runState)) = some ([8, 8, 8], 0, .halted) := by decide

/-- `while InputReady() do Output(Input())`, of arity 0 (46_custom_operations.md R91, R92). -/
def drain : HostOp :=
  ⟨0, .seq (.inputReady 0) (.whileDo (.var 0) (.seq (.input 1) (.seq (.output (.var 1)) (.inputReady 0)))), .advance⟩

/-- A loop that only its input bounds: the whole queue is emitted in order, then the advance. -/
theorem test_hosted_drain :
    step (machineWith (overrideOp defaultTable 50 (.hosted drain)) [50] [7, -2]) =
      .next { machineWith (overrideOp defaultTable 50 (.hosted drain)) [50] [] with outLog := [7, -2], pc := 1 } :=
  execHosted_of_runCmd (h := drain) (w := 50) (ps := [])
    (s := machineWith (overrideOp defaultTable 50 (.hosted drain)) [50] [7, -2]) rfl 2 rfl

/-- Emit the index of the first cell that holds 0, found by reading the tape from its start. -/
def scan : HostOp :=
  ⟨0, .seq (.memRead 1 (.var 0))
    (.seq (.whileDo (.var 1) (.seq (.assign 0 (.add (.var 0) (.const 1))) (.memRead 1 (.var 0)))) (.output (.var 0))), .halt⟩

/-- A scan to a zero cell stops there, and past the end of a tape without one takes the fault of MemRead. -/
theorem test_hosted_scan :
    step (machineWith [(50, .hosted scan)] [50, 5, 0, 9] []) =
      .next { machineWith [(50, .hosted scan)] [50, 5, 0, 9] [] with outLog := [2], runState := .halted } ∧
    step (machineWith [(50, .hosted scan)] [50, 5] []) =
      .next { machineWith [(50, .hosted scan)] [50, 5] [] with fault := some ⟨.outOfBounds 2 .read, 0⟩ } :=
  ⟨execHosted_of_runCmd (h := scan) (w := 50) (ps := []) (s := machineWith [(50, .hosted scan)] [50, 5, 0, 9] []) rfl 2 rfl,
   execHosted_of_runCmd (h := scan) (w := 50) (ps := []) (s := machineWith [(50, .hosted scan)] [50, 5] []) rfl 2 rfl⟩

/-- A behaviour that never ends has no answer. -/
theorem test_endless_behaviour (l : Latched) (s : State) : behave l (.whileDo (.const 1) .skip) s = none := by
  have h : ∀ n env u, iterateWhile (fun _ => true) (fun env' s' => some (.going env' s')) n env u = none := by
    intro n
    induction n with
    | zero => intro env u; rfl
    | succ n ih => exact ih
  exact behave_eq_none_iff.2 fun n => h n [] s

theorem test_ill_formed_operation_refused :
    step (machineWith [(50, .hosted ⟨4, .skip, .advance⟩)] [50, 0, 0, 0, 0] []) = .refused .illFormedOperation := by rfl

/-! ## The host's transactions (95_test_vectors.md 2.7, 2.11) -/

theorem test_reset_is_disabled : stepped State.reset = some State.reset := by decide

theorem test_run_enters : State.reset.runEnter.runState = .running := by decide

theorem test_construct_refuses_arity :
    State.construct [(3, .hosted ⟨4, .skip, .advance⟩)] [99] = .error (.operationRefused 3) := rfl

theorem test_override_replaces : overrideOp (overrideOp defaultTable 3 (.hosted ins)) 3 (.default .input) = defaultTable := by
  decide

theorem test_text_parses :
    parseProgram false ['1', '0', '0', '2', ',', '-', '4', ',', '0', '0', '7', ',', '-', '0'] = .ok [1002, -4, 7, 0] := rfl

theorem test_text_malformed :
    parseProgram false [] = .error (.malformedProgram 0) ∧
    parseProgram false ['1', ',', ',', '2'] = .error (.malformedProgram 1) ∧
    parseProgram false ['1', ',', '2', ','] = .error (.malformedProgram 2) ∧
    parseProgram false ['+', '1'] = .error (.malformedProgram 0) ∧
    parseProgram false ['1', ',', ' ', '2'] = .error (.malformedProgram 1) ∧
    parseProgram true ['1', ',', ' ', '2'] = .ok [1, 2] ∧
    parseProgram Config.textTrailingWs ['9', '9', '\n'] = .error (.malformedProgram 0) ∧
    parseProgram true ['9', '9', '\n'] = .ok [99] := ⟨rfl, rfl, rfl, rfl, rfl, rfl, rfl, rfl⟩

theorem test_serialise : serialise [1002, -4, 0] = ['1', '0', '0', '2', ',', '-', '4', ',', '0'] := by decide

theorem test_accessors :
    (machine [2, 0, 99] 0 []).result = .ok 2 ∧ (machine [2, 0, 99] 0 []).readLast = .ok 99 ∧
    (machine [] 0 []).readLast = .error (.outOfBounds 0 .read) := ⟨rfl, rfl, rfl⟩

/-- The placed word runs at the very next step, from the reset state. -/
theorem test_with_fetch_word :
    (stepped (State.reset.withFetchWord 16 1105)).map (fun t => (t.tape, t.pc)) = some ([1105, 0, 0, 0], 3) ∧
    (stepped (State.reset.withFetchWord 8 99)).map (fun t => t.runState) = some .halted := by decide

/-! ## Witnesses: states and operands that meet the hypotheses of each statement, clause by clause -/

/-- DecodedCellsCarryTheInstruction: a word with an unexamined digit. -/
theorem witness_decodedCells :
    decodeCells defaultTable [21104, -3, 99] = .ok (.instr (.output (imm (-3))), [99]) ∧
    ∃ w : Nat, [21104, -3, 99] = (w : Int) :: ([-3] ++ [(99 : Int)]) ∧ w % 100 = 4 ∧ w / 10 ^ 2 % 10 = 1 :=
  ⟨rfl, 21104, rfl, by decide, by decide⟩

/-- WordFieldsAreDecimalDigits: a short word, an unbound opcode, and a word that decodes with both modes. -/
theorem witness_wordFields :
    (99 < 10 ^ (0 + 2)) ∧ lookupOp defaultTable ((100 % 100 : Nat) : Int) = none ∧
    decodeWord defaultTable (1002 : Nat) = .ok (.default .mul, [.position, .immediate, .position]) :=
  ⟨by decide, by decide, rfl⟩

/-- InstructionOccupiesOnePlusArityCells: a default and a host-supplied operation. -/
theorem witness_occupies :
    decodeCells defaultTable [1105, -1, 4, 9] = .ok (.instr (.jt (imm (-1)) (imm 4)), [9]) ∧
    decodeCells (overrideOp defaultTable 3 (.hosted ins)) [3, 0, 4] = .ok (.hosted ins 3 [pos 0], [4]) := ⟨rfl, rfl⟩

/-- UnexaminedDigitsAreIgnored. -/
theorem witness_unexamined : lookupOp defaultTable ((199 % 100 : Nat) : Int) = some (.default .hlt) := by decide

/-- UnboundOpcodeFaults: opcodes 0, 9 and 98 at the ends of the two ranges, and a machine at one. -/
theorem witness_unbound :
    (0 < 100 ∧ 98 < 100) ∧ (machine [100] 0 []).enabled = true ∧ (machine [100] 0 []).memRead 0 = .ok ((100 : Nat) : Int) ∧
    lookupOp (machine [100] 0 []).optable ((100 % 100 : Nat) : Int) = none := ⟨by decide, by decide, rfl, by decide⟩

/-- OverrideReplacesItsOpcodeOnly: the keys next to the range. -/
theorem witness_override_outside : ((-1 : Int) < 0 ∨ 99 < (-1 : Int)) ∧ ((100 : Int) < 0 ∨ 99 < (100 : Int)) := by decide

/-- MemReadIsBoundsChecked and MemWriteIsBoundsChecked: both ends of the tape from inside and outside. -/
theorem witness_bounds :
    (machine [5, 6] 0 []).tape[0]? = some 5 ∧ (machine [5, 6] 0 []).tape[1]? = some 6 ∧
    (0 ≤ (1 : Int) ∧ (1 : Int) < (machine [5, 6] 0 []).tape.length) ∧
    ((-1 : Int) < 0 ∨ ((machine [5, 6] 0 []).tape.length : Int) ≤ -1) ∧
    ((2 : Int) < 0 ∨ ((machine [5, 6] 0 []).tape.length : Int) ≤ 2) := by decide

/-- WriteIsSeenByFetch. -/
theorem witness_write : ∃ t, (machine [5, 6] 0 []).memWrite 1 99 = .ok t := ⟨_, rfl⟩

/-- ValueFollowsTheMode and WriteParamFollowsTheMode: each clause. -/
theorem witness_modes :
    (imm 7).mode = .immediate ∧ ((pos 1).mode = .position ∧ (pos 1).raw = ((1 : Nat) : Int) ∧
      (machine [5, 6] 0 []).tape[1]? = some 6 ∧ 1 < (machine [5, 6] 0 []).tape.length) ∧
    ((pos 2).mode = .position ∧ ((pos 2).raw < 0 ∨ ((machine [5, 6] 0 []).tape.length : Int) ≤ (pos 2).raw)) := by decide

/-- StepIsEnabledExactlyWhenRunning: a disabled machine, a held IN, a held host-supplied operation. -/
theorem witness_disabled_and_held :
    State.reset.enabled = false ∧
    ((machine [3, 0] 0 []).fetch = .ok (.instr (.input (pos 0))) ∧ (machine [3, 0] 0 []).inQ = []) ∧
    ((pseudocode .input).wf = true ∧
     (machineWith [(3, .hosted (pseudocode .input))] [3, 0] []).fetch = .ok (.hosted (pseudocode .input) 3 [pos 0]) ∧
     behave ⟨0, 3, [pos 0]⟩ (pseudocode .input).body (machineWith [(3, .hosted (pseudocode .input))] [3, 0] []) = some .held) :=
  ⟨rfl, ⟨rfl, rfl⟩, rfl, rfl, rfl⟩

/-- StepRunsTheDecodedInstruction: a default instruction in the middle of a tape, and a host-supplied operation. -/
theorem witness_step_runs :
    ((machine [0, 99] 1 []).enabled = true ∧ (machine [0, 99] 1 []).pc = ((1 : Nat) : Int) ∧
      decodeCells defaultTable ((machine [0, 99] 1 []).tape.drop 1) = .ok (.instr .hlt, [])) ∧
    ((machineWith [(3, .hosted ins)] [3, 0] []).enabled = true ∧
      decodeCells [(3, .hosted ins)] ((machineWith [(3, .hosted ins)] [3, 0] []).tape.drop 0) = .ok (.hosted ins 3 [pos 0], [])) :=
  ⟨⟨rfl, rfl, rfl⟩, rfl, rfl⟩

/-- FetchFaultsComeInOrder: the pc just outside at both ends, a negative word, an unbound opcode, a bad digit at position 1
after a good one, and the last parameter cell missing. -/
theorem witness_fetch_faults :
    (((-1 : Int) < 0) ∧ ((machine [99] 1 []).tape.length : Int) ≤ (machine [99] 1 []).pc) ∧
    ((machine [-1] 0 []).memRead 0 = .ok (-1) ∧ (-1 : Int) < 0) ∧
    ((machine [9] 0 []).memRead 0 = .ok ((9 : Nat) : Int) ∧ lookupOp defaultTable ((9 % 100 : Nat) : Int) = none) ∧
    ((machine [2101, 0, 0, 0] 0 []).memRead 0 = .ok ((2101 : Nat) : Int) ∧
      lookupOp defaultTable ((2101 % 100 : Nat) : Int) = some (.default .add) ∧ 1 < (Operation.default .add).arity ∧
      2 ≤ 2101 / 10 ^ (1 + 2) % 10 ∧ 2101 / 10 ^ (0 + 2) % 10 < 2) ∧
    ((machine [1, 0, 0] 0 []).memRead 0 = .ok ((1 : Nat) : Int) ∧ (∀ q, q < 3 → 1 / 10 ^ (q + 2) % 10 < 2) ∧
      2 < (Operation.default .add).arity ∧ (machine [1, 0, 0] 0 []).pc + 1 + ((2 : Nat) : Int) = (machine [1, 0, 0] 0 []).tape.length) :=
  ⟨by decide, ⟨rfl, by decide⟩, ⟨rfl, by decide⟩, ⟨rfl, by decide⟩, rfl, by decide, by decide, by decide⟩

/-- ParametersAreTheCellsAfterTheWord: a tape that just holds the parameters, and one that lacks the last. -/
theorem witness_parameters :
    ((machine [104, 7] 0 []).memRead 0 = .ok 104 ∧ decodeWord defaultTable 104 = .ok (.default .output, [.immediate]) ∧
      (machine [104, 7] 0 []).pc + ((1 : Nat) : Int) < (machine [104, 7] 0 []).tape.length) ∧
    ((machine [104] 0 []).pc + 1 + ((0 : Nat) : Int) = (machine [104] 0 []).tape.length ∧ (machine [104] 0 []).enabled = true) :=
  ⟨⟨rfl, rfl, by decide⟩, by decide, rfl⟩

/-- EveryMachineAnswersEveryStep: a table with a terminating override, and a machine at a behaviour that never ends. -/
theorem witness_terminates :
    (OpTable.wf (machine [99] 0 []).optable = true ∧ TableTerminates (machine [99] 0 []).optable) ∧
    (applyOverrides defaultTable [(3, .hosted ins)] = .ok (overrideOp defaultTable 3 (.hosted ins)) ∧
      ∀ o h, (o, Operation.hosted h) ∈ [((3 : Int), Operation.hosted ins)] → Terminates h) ∧ ins.body.whileFree = true ∧
    (machineWith [(50, .hosted ⟨0, .whileDo (.const 1) .skip, .advance⟩)] [50] []).enabled = true ∧
    (HostOp.mk 0 (.whileDo (.const 1) .skip) .advance).wf = true ∧
    (machineWith [(50, .hosted ⟨0, .whileDo (.const 1) .skip, .advance⟩)] [50] []).fetch =
      .ok (.hosted ⟨0, .whileDo (.const 1) .skip, .advance⟩ 50 []) ∧
    behave ⟨0, 50, []⟩ (.whileDo (.const 1) .skip)
      (machineWith [(50, .hosted ⟨0, .whileDo (.const 1) .skip, .advance⟩)] [50] []) = none :=
  ⟨⟨by decide, defaultTable_terminates⟩, ⟨rfl, fun _ h hm => by simp at hm; exact hm.2 ▸ terminates_of_whileFree rfl⟩, rfl, rfl,
   rfl, rfl, test_endless_behaviour _ _⟩

/-- StepMovesRunStateOnlyByItsTable, StepKeepsTapeLengthAndTable, StepOnlyAppendsOutputAndConsumesInput and
EarlierOutputIsNeverObserved: a machine that steps, and one whose step latches a fault. -/
theorem witness_steps :
    OpTable.wf (machine [99] 0 []).optable = true ∧ Memory.wf 1 (machine [99] 0 []).tape = true ∧
    (∃ t, step (machine [99] 0 []) = .next t) ∧ ∃ t, step (machine [0] 0 []) = .next t ∧ t.fault ≠ (machine [0] 0 []).fault :=
  ⟨by decide, rfl, ⟨_, rfl⟩, _, rfl, by decide⟩

/-- PlacedWordRunsAtTheNextStep. -/
theorem witness_placed : State.reset.optable = defaultTable ∧ decodeTableWord 8 4 = some (.output (pos 0)) := by decide

/-- AddAndMulComplete, LtAndEqComplete, ExactlyOneComparisonHolds: operands of both modes, a target in the last cell. -/
theorem witness_three_operand :
    (machine [5, 6] 0 []).value (imm (-2)) = .ok (-2) ∧ (machine [5, 6] 0 []).value (pos 0) = .ok 5 ∧
    (pos 1).mode = .position ∧ 0 ≤ (pos 1).raw ∧ (pos 1).raw < (machine [5, 6] 0 []).tape.length ∧
    (machine [5, 6] 0 []).InBounds (pos 1).raw := ⟨rfl, rfl, rfl, by decide, by decide, by decide⟩

/-- AddDoesAllItsRuleSays, MulDoesAllItsRuleSays, LtDoesAllItsRuleSays, EqDoesAllItsRuleSays: a fault before execution, an
operand just past the tape, a target of each mode inside and outside, and operands that are less, equal and greater. -/
theorem witness_three_operand_clauses :
    ((machine [0] 0 []).enabled = true ∧ (machine [0] 0 []).fetch = .error (.unknownOpcode 0)) ∧
    ((pos 2).mode = .position ∧ ¬ (machine [5, 6] 0 []).InBounds (pos 2).raw) ∧
    ((machine [5, 6] 0 []).value (pos 0) = .ok 5 ∧ (machine [5, 6] 0 []).value (pos 1) = .ok 6) ∧
    (imm 0).mode = .immediate ∧ (¬ (machine [5, 6] 0 []).InBounds (pos (-1)).raw) ∧
    (machine [5, 6] 0 []).InBounds (pos 0).raw ∧ ((5 : Int) < 6 ∧ ¬ (6 : Int) < 5 ∧ (5 : Int) = 5 ∧ (5 : Int) ≠ 6) :=
  ⟨⟨rfl, rfl⟩, by decide, ⟨rfl, rfl⟩, rfl, by decide, by decide, by decide⟩

/-- ThreeOperandFrame: a step that stores, one that faults at an immediate target, and an address outside the store. -/
theorem witness_three_operand_frame :
    (∃ t, exec (.add (imm 1) (imm 2) (pos 0)) (machine [5, 6] 0 []) = .next t) ∧ storeAddress (pos 0) ≠ some 1 ∧
    (∃ t, exec (.eq (imm 1) (imm 2) (imm 0)) (machine [5, 6] 0 []) = .next t) ∧ storeAddress (imm 0) ≠ some 0 :=
  ⟨⟨_, rfl⟩, by decide, ⟨_, rfl⟩, by decide⟩

/-- InCompletes, InWaitsAndTraps, InFrame: a queued integer, an empty queue, a target of each kind. -/
theorem witness_in :
    ((machine [5, 6] 0 [7, 8]).inQ = 7 :: [8] ∧ (pos 1).mode = .position ∧ 0 ≤ (pos 1).raw ∧
      (pos 1).raw < (machine [5, 6] 0 [7, 8]).tape.length) ∧
    (machine [5, 6] 0 []).inQ = [] ∧ (imm 0).mode = .immediate ∧
    ((pos 2).mode = .position ∧ ¬ (machine [5, 6] 0 [7]).InBounds (pos 2).raw) ∧
    (∃ t, exec (.input (pos 1)) (machine [5, 6] 0 [7, 8]) = .next t) ∧ storeAddress (pos 1) ≠ some 0 :=
  ⟨by decide, rfl, rfl, by decide, ⟨_, rfl⟩, by decide⟩

/-- OutCompletes, OutDoesAllItsRuleSays, NonStoringFrame, ChannelsAreCalledOncePerInstruction: OUT, and each other shape. -/
theorem witness_out_and_frames :
    (machine [5, 6] 0 []).value (pos 1) = .ok 6 ∧ (¬ (machine [5, 6] 0 []).InBounds (pos 2).raw) ∧
    (∃ t, exec (.output (pos 1)) (machine [5, 6] 0 []) = .next t) ∧ (∃ t, exec (.jt (imm 1) (imm 0)) (machine [5] 0 []) = .next t) ∧
    (∃ t, exec (.jf (imm 1) (imm 0)) (machine [5] 0 []) = .next t) ∧ (∃ t, exec .hlt (machine [5] 0 []) = .next t) ∧
    (∃ t, exec (.input (pos 0)) (machine [5] 0 [7]) = .next t) ∧ ∃ t, exec (.lt (imm 0) (imm 1) (pos 0)) (machine [5] 0 []) = .next t :=
  ⟨rfl, by decide, ⟨_, rfl⟩, ⟨_, rfl⟩, ⟨_, rfl⟩, ⟨_, rfl⟩, ⟨_, rfl⟩, _, rfl⟩

/-- JtAndJfComplete, JumpsTrapOnUnreadableOperands: operands that resolve to 0 and to a negative target, and ones that do not. -/
theorem witness_jumps :
    (machine [0, 6] 0 []).value (pos 0) = .ok 0 ∧ (machine [0, 6] 0 []).value (imm (-1)) = .ok (-1) ∧
    ((pos 2).mode = .position ∧ ¬ (machine [0, 6] 0 []).InBounds (pos 2).raw) := ⟨rfl, rfl, by decide⟩

/-- JumpOutsideFaultsAtTheNextFetch: conditions that take JT and JF, a target just below and one just past the tape. -/
theorem witness_jump_outside :
    (machine [0, 6] 0 []).enabled = true ∧ (machine [0, 6] 0 []).value (pos 1) = .ok 6 ∧ (6 : Int) ≠ 0 ∧
    (machine [0, 6] 0 []).value (pos 0) = .ok 0 ∧
    ((machine [0, 6] 0 []).value (imm (-1)) = .ok (-1) ∧ ((-1 : Int) < 0 ∨ ((machine [0, 6] 0 []).tape.length : Int) ≤ -1)) ∧
    ((machine [0, 6] 0 []).value (imm 2) = .ok 2 ∧ ((2 : Int) < 0 ∨ ((machine [0, 6] 0 []).tape.length : Int) ≤ 2)) :=
  ⟨rfl, rfl, by decide, rfl, ⟨rfl, by decide⟩, rfl, by decide⟩

/-- HltCompletes: a word with higher digits in the last cell. -/
theorem witness_hlt :
    (machine [0, 199] 1 []).enabled = true ∧ (machine [0, 199] 1 []).optable = defaultTable ∧
    (machine [0, 199] 1 []).memRead 1 = .ok ((199 : Nat) : Int) ∧ 199 % 100 = 99 := ⟨rfl, rfl, rfl, by decide⟩

/-- HaltedIsTerminal, FaultIsFinal, RunEntersAndReturnsAsListed, RunIsTheLoopOfSteps: a machine in each condition. -/
theorem witness_stopped :
    ({ machine [99] 0 [] with runState := .halted } : State).runState = .halted ∧ ((machine [0] 0 []).raise (.unknownOpcode 0)).fault ≠ none ∧
    (State.reset.fault = none ∧ State.reset.runState = .uninitialized) ∧
    ({ machine [99] 0 [] with runState := .halted } : State).runEnter.hasReturned = true ∧
    (∃ s, State.construct [] [99] = .ok s) ∧
    (∃ t, exec .hlt ((machine [0] 0 []).raise (.unknownOpcode 0)) = .next t) ∧
    (∃ t, runFor 1 (machine [99] 0 []) = .next t ∧ t.hasReturned = true) ∧
    ∃ t, runFor 0 (machine [99] 0 []) = .next t ∧ t.hasReturned = false :=
  ⟨rfl, by decide, by decide, by decide, ⟨_, rfl⟩, ⟨_, rfl⟩, ⟨_, rfl, rfl⟩, _, rfl, rfl⟩

/-- FaultingInstructionChangesOnlyTheLatch: an ADD and an IN that fault from an unfaulted machine. -/
theorem witness_faulting :
    (machine [5] 0 [7]).fault = none ∧
    (∃ t, exec (.add (imm 1) (imm 2) (imm 0)) (machine [5] 0 [7]) = .next t ∧ t.fault ≠ none) ∧
    ∃ t, exec (.input (pos 1)) (machine [5] 0 [7]) = .next t ∧ t.fault ≠ none :=
  ⟨rfl, ⟨_, rfl, by decide⟩, _, rfl, by decide⟩

/-- InstructionsLeaveThePcAsListed: one instruction of each clause, IN held among them. -/
theorem witness_pc :
    (∃ t, exec (.mul (imm 1) (imm 2) (pos 0)) (machine [5] 0 []) = .next t ∧ t.fault = none) ∧
    (∃ t, exec (.output (imm 1)) (machine [5] 0 []) = .next t ∧ t.fault = none) ∧
    (∃ t, exec (.input (pos 0)) (machine [5] 0 []) = .next t ∧ t.fault = none) ∧
    (∃ t, exec (.input (pos 0)) (machine [5] 0 [7]) = .next t ∧ t.fault = none) ∧
    (∃ t, exec (.jt (imm 1) (imm 9)) (machine [5] 0 []) = .next t ∧ t.fault = none) ∧
    (∃ t, exec (.jf (imm 1) (imm 9)) (machine [5] 0 []) = .next t ∧ t.fault = none) ∧
    ∃ t, exec .hlt (machine [5] 0 []) = .next t ∧ t.fault = none :=
  ⟨⟨_, rfl, rfl⟩, ⟨_, rfl, rfl⟩, ⟨_, rfl, rfl⟩, ⟨_, rfl, rfl⟩, ⟨_, rfl, rfl⟩, ⟨_, rfl, rfl⟩, _, rfl, rfl⟩

/-- SetcDoesAllItsRuleSays, NopAdvancesAndInsSuspendsOrReads: each clause. -/
theorem witness_hosted :
    (imm 0).mode = .immediate ∧ ((pos 1).mode = .position ∧ ¬ (machine [5] 0 []).InBounds (pos 1).raw) ∧
    (machine [5] 0 []).InBounds (pos 0).raw ∧ (machine [5] 0 []).inQ = [] ∧ (machine [5] 0 [7]).inQ ≠ [] := by decide

/-- StepKeepsTheMachineInvariant, HostTransactionsKeepTheMachineInvariant: the invariant holds of a running machine. -/
theorem witness_inv : (machine [99] 0 []).Inv ∧ ∃ t, step (machine [99] 0 []) = .next t :=
  ⟨⟨by decide, by simp [machine], by simp [machine]⟩, _, rfl⟩

/-- DefaultMachineNeverSuspends: of a running machine that halts next, and of the halted one. -/
theorem witness_default_inv :
    (machine [99] 0 []).DefaultInv ∧ ({ machine [99] 0 [] with runState := .halted } : State).DefaultInv ∧
    (∃ t, step (machine [99] 0 []) = .next t) ∧ ∃ s, State.construct [] [99] = .ok s :=
  ⟨⟨rfl, by simp [machine], by simp [machine]⟩, ⟨rfl, by simp, fun _ => ⟨99, rfl, by decide⟩⟩, ⟨_, rfl⟩, _, rfl⟩

/-- ConstructLoadsTheResetValues: accepted and refused overrides, texts that parse and that do not, an arity just too large. -/
theorem witness_construct :
    (∃ t, applyOverrides defaultTable [(3, .hosted ins)] = .ok t) ∧ parseProgram false ['9', '9'] = .ok [99] ∧
    parseProgram false ['x'] = .error (.malformedProgram 0) ∧ Operation.wf (.hosted ⟨4, .skip, .advance⟩) = false ∧
    Operation.wf (.hosted ins) = true ∧ 3 < (HostOp.mk 4 .skip .advance).arity ∧
    applyOverrides defaultTable [(3, .hosted ⟨4, .skip, .advance⟩)] = .error (.operationRefused 3) ∧
    ∃ s, State.construct [] [99] = .ok s :=
  ⟨⟨_, rfl⟩, rfl, rfl, by decide, by decide, by decide, rfl, _, rfl⟩

/-- SerialisedTapeReadsBack and LoaderReportsTheFirstBadToken: a tape, integers of each sign, a text with a bad second token. -/
theorem witness_text :
    ([1, -2] : List Int) ≠ [] ∧ (0 : Int) < 7 ∧ (-7 : Int) < 0 ∧
    (splitTokens ['1', ',', 'x', ',', '3'] = [['1']] ++ ['x'] :: [['3']] ∧ (∀ t ∈ [['1']], (parseInteger t).isSome = true) ∧
      parseInteger ['x'] = none) ∧
    parseInteger ['-', '0', '7'] = some (-7) ∧ parseInteger ['-'] = none ∧ parseInteger ['+', '1'] = none := by decide

/-- AccessorsReadFirstAndLastCell: a tape of one cell, and the empty tape. -/
theorem witness_accessors :
    ((machine [5] 0 []).tape.length = 0 + 1 ∧ (machine [5] 0 []).tape[0]? = some 5) ∧ State.reset.tape = [] := by decide

end Sys2Proof.Tests
end

/-! PROOFS of the statements of 10_state.md. -/

/-! ## The operation table -/
namespace Sys2Proof

/-- A lookup after an override finds the new operation at its own key and what stood there before at any other
(10_state.md R22). -/
theorem lookupOp_overrideOp (t : OpTable) (o k : Int) (op : Operation) :
    lookupOp (overrideOp t o op) k = if k = o then some op else lookupOp t k := by
  fun_induction overrideOp t o op with
  | case1 o op => simp only [lookupOp, eq_comm]
  | case2 k' op' t o op hlt => simp only [lookupOp, eq_comm]
  | case3 op' t o op hlt =>
    by_cases hk : k = o
    · simp [lookupOp, hk]
    · simp [lookupOp, hk, Ne.symm hk]
  | case4 k' op' t o op hlt hne ih =>
    simp only [lookupOp, ih]
    by_cases hk : k' = k
    · rw [if_pos hk, if_neg (by omega), if_pos hk]
    · rw [if_neg hk, if_neg hk]

/-- The opcode of a word lies in 0 to 99, so a key outside that range is never looked up. -/
theorem opcodeOf_ne_of_outside {o : Int} (h : o < 0 ∨ 99 < o) (w : Nat) : (opcodeOf w : Int) ≠ o := by
  have : opcodeOf w < 100 := Nat.mod_lt _ (by decide)
  omega

/-- A word decodes by what the table binds to its opcode alone. -/
theorem decodeWord_congr {t u : OpTable} {w : Int}
    (h : lookupOp u (opcodeOf w.toNat) = lookupOp t (opcodeOf w.toNat)) : decodeWord u w = decodeWord t w := by
  unfold decodeWord
  rw [h]

/-- Settles O9, by induction on the table for the lookup; no word has an opcode outside 0 to 99. -/
theorem overrideReplacesItsOpcodeOnly : Obligations.OverrideReplacesItsOpcodeOnly := by
  refine ⟨lookupOp_overrideOp, fun t o op w h => decodeWord_congr ?_⟩
  rw [lookupOp_overrideOp, if_neg (opcodeOf_ne_of_outside h _)]

/-- Settles O8: a bound opcode is that of a default operation, and each default operation stands at its opcode. -/
theorem defaultTableHasExactlyNineEntries : Obligations.DefaultTableHasExactlyNineEntries := by
  intro o op
  constructor
  · intro h
    obtain ⟨n, rfl, rfl⟩ := lookup_default_some h
    cases n <;> decide
  · rintro (⟨rfl, rfl⟩ | ⟨rfl, rfl⟩ | ⟨rfl, rfl⟩ | ⟨rfl, rfl⟩ | ⟨rfl, rfl⟩ | ⟨rfl, rfl⟩ | ⟨rfl, rfl⟩ | ⟨rfl, rfl⟩ | ⟨rfl, rfl⟩) <;>
      rfl

/-- The keys of a table rise from each entry to the next exactly when each is below all later ones. -/
theorem rising_iff_pairwise (t : OpTable) : OpTable.rising t = true ↔ (t.map Prod.fst).Pairwise (· < ·) := by
  rw [← List.isChain_iff_pairwise]
  fun_induction OpTable.rising t with
  | case1 => simp
  | case2 => simp
  | case3 k op k' op' t ih => simpa using fun _ => ih

/-- An override brings in no entry but its own. -/
theorem mem_overrideOp {t : OpTable} {o : Int} {op : Operation} {e : Int × Operation} (h : e ∈ overrideOp t o op) :
    e = (o, op) ∨ e ∈ t := by
  fun_induction overrideOp t o op <;> grind

/-- An override keeps the keys rising. -/
theorem rising_overrideOp {t : OpTable} (o : Int) (op : Operation) (h : OpTable.rising t = true) :
    OpTable.rising (overrideOp t o op) = true := by
  rw [rising_iff_pairwise, List.pairwise_map] at h ⊢
  induction t with
  | nil => simp [overrideOp]
  | cons e t ih =>
    obtain ⟨k, op'⟩ := e
    obtain ⟨hk, ht⟩ := List.pairwise_cons.1 h
    unfold overrideOp
    split
    · next hlt => exact List.pairwise_cons.2 ⟨by grind, h⟩
    · split
      · next heq => exact List.pairwise_cons.2 ⟨by grind, ht⟩
      · refine List.pairwise_cons.2 ⟨fun e he => ?_, ih ht⟩
        obtain rfl | he := mem_overrideOp he
        · show k < o
          omega
        · exact hk e he

/-- An accepted override keeps a table one a machine can be constructed with (10_state.md R22). -/
theorem tableWf_overrideOp {t : OpTable} (o : Int) {op : Operation} (h : OpTable.wf t = true) (hop : op.wf = true) :
    OpTable.wf (overrideOp t o op) = true := by
  simp only [OpTable.wf, Bool.and_eq_true, List.all_eq_true] at h ⊢
  obtain ⟨hr, ha⟩ := h
  refine ⟨rising_overrideOp o op hr, fun e he => ?_⟩
  obtain rfl | he := mem_overrideOp he
  · exact hop
  · exact ha e he

end Sys2Proof

/-! ## What a whole step leaves unchanged, and the machine invariant -/
namespace Sys2Proof.Machine

/-- Whatever overrides are accepted, the table stays one a machine can be constructed with. -/
theorem tableWf_applyOverrides {ov : List (Int × Operation)} {t u : OpTable} (hw : OpTable.wf t = true)
    (h : applyOverrides t ov = .ok u) : OpTable.wf u = true := by
  induction ov generalizing t with
  | nil =>
    simp only [applyOverrides, Except.ok.injEq] at h
    exact h ▸ hw
  | cons e ov ih =>
    obtain ⟨o, op⟩ := e
    simp only [applyOverrides] at h
    split at h
    · next hop => exact ih (tableWf_overrideOp o hw hop) h
    · cases h

/-- A constructed machine is the reset one with the image and an accepted table (70_reset_and_hazards.md R120). -/
theorem construct_eq_ok {ov : List (Int × Operation)} {image : List Int} {s : State} (h : State.construct ov image = .ok s) :
    ∃ t, OpTable.wf t = true ∧ s = { State.reset with tape := image, optable := t } := by
  unfold State.construct at h
  split at h
  · cases h
  · next t ht =>
    simp only [Except.ok.injEq] at h
    exact ⟨t, tableWf_applyOverrides defaultTable_wf ht, h.symm⟩

/-- The tape, the channels and the table after an operation are those its primitives reached: ending an operation changes none. -/
theorem Effect.reached {n : Nat} {s t : State} (h : Effect n s t) :
    ∃ u, Frame s u ∧ t.tape = u.tape ∧ t.optable = u.optable ∧ t.inQ = u.inQ ∧ t.outLog = u.outLog := by
  cases h with
  | held => exact ⟨s, .refl s, rfl, rfl, rfl, rfl⟩
  | raised u f hf ht => exact ⟨u, hf, rfl, rfl, rfl, rfl⟩
  | signalled u sig hf => exact ⟨u, hf, by simp, by simp, by simp, by simp⟩

/-- The same of a whole step, enabled or not. -/
theorem step_reached {s t : State} (hw : OpTable.wf s.optable = true) (h : step s = .next t) :
    ∃ u, Frame s u ∧ t.tape = u.tape ∧ t.optable = u.optable ∧ t.inQ = u.inQ ∧ t.outLog = u.outLog := by
  obtain ⟨-, rfl⟩ | ⟨-, n, -, he⟩ := step_cases hw h
  · exact ⟨t, .refl t, rfl, rfl, rfl, rfl⟩
  · exact he.reached

/-- Settles O52: the frame of the primitives, which ending the operation does not touch. -/
theorem stepKeepsTapeLengthAndTable : Obligations.StepKeepsTapeLengthAndTable := by
  intro s t n hw hn h
  obtain ⟨u, hf, htape, htable, -, -⟩ := step_reached hw h
  refine ⟨?_, htable.trans hf.optable⟩
  rw [Memory.wf, htape, hf.length]
  exact hn

/-- Settles O53: the frame of the primitives, which ending the operation does not touch. -/
theorem stepOnlyAppendsOutputAndConsumesInput : Obligations.StepOnlyAppendsOutputAndConsumesInput := by
  intro s t hw h
  obtain ⟨u, hf, -, -, hin, hout⟩ := step_reached hw h
  obtain ⟨k, hk⟩ := hf.inQ
  refine ⟨hout ▸ hf.outLog, s.inQ.take k, ?_⟩
  rw [hin, hk, List.take_append_drop]

/-- No signal leads back to `uninitialized`. -/
theorem applySignal_ne_uninitialized {s : State} (h : s.runState ≠ .uninitialized) (n : Nat) (sig : Signal) :
    (s.applySignal n sig).runState ≠ .uninitialized := by
  cases sig with
  | advance => exact h
  | jump t => exact h
  | halt => simp
  | suspend => simp

/-- An operation that ran from an enabled machine keeps the invariant: a fault it raised is truthful where it was raised, and a
signal touches neither the latch nor the table. -/
theorem Effect.inv {n : Nat} {s t : State} (h : Effect n s t) (he : s.enabled = true) (hs : s.Inv) : t.Inv := by
  obtain ⟨hrun, hnone⟩ := (enabled_iff s).1 he
  cases h with
  | held => exact hs
  | raised u f hf ht =>
    refine ⟨hf.optable ▸ hs.table, ?_, ?_⟩
    · rintro r ⟨⟩
      exact ⟨hf.runState.trans hrun, (truthful_congr rfl rfl rfl _).trans ht⟩
    · simp [hf.runState, hrun]
  | signalled u sig hf =>
    have hne : u.runState ≠ .uninitialized := by simp [hf.runState, hrun]
    refine ⟨?_, ?_, fun hu => absurd hu (applySignal_ne_uninitialized hne n sig)⟩
    · rw [State.applySignal_optable, hf.optable]
      exact hs.table
    · simp [hf.fault, hnone]

/-- Settles O47: a step does nothing, or has the effect of the operation it fetched on an enabled machine. -/
theorem stepKeepsTheMachineInvariant : Obligations.StepKeepsTheMachineInvariant := by
  intro s t hs h
  obtain ⟨-, rfl⟩ | ⟨he, n, -, heff⟩ := step_cases hs.table h
  · exact hs
  · exact heff.inv he hs

/-- A machine that is at its reset values but for the image, with an accepted table, meets the invariant. -/
theorem inv_reset_with (image : List Int) {t : OpTable} (h : OpTable.wf t = true) :
    ({ State.reset with tape := image, optable := t } : State).Inv where
  table := h
  latch := by simp
  fresh _ := ⟨rfl, rfl⟩

/-- Settles O48: the default table is accepted. -/
theorem resetHasTheMachineInvariant : Obligations.ResetHasTheMachineInvariant :=
  inv_reset_with [] defaultTable_wf

/-- A faulted machine enters no run. -/
theorem runEnter_of_fault {s : State} (h : s.fault ≠ none) : s.runEnter = s :=
  if_pos (Option.isSome_iff_ne_none.2 h)

/-- An unfaulted machine is out of `uninitialized` once it has entered `run` (40_execution_cycle.md R73). -/
theorem runEnter_ne_uninitialized {s : State} (h : s.fault = none) : s.runEnter.runState ≠ .uninitialized := by
  unfold State.runEnter
  rw [h]
  cases hr : s.runState <;> simp [hr]

theorem inv_runEnter {s : State} (hs : s.Inv) : s.runEnter.Inv := by
  by_cases hf : s.fault = none
  · refine ⟨?_, ?_, fun h => absurd h (runEnter_ne_uninitialized hf)⟩
    · rw [State.runEnter_optable]
      exact hs.table
    · simp [hf]
  · rw [runEnter_of_fault hf]
    exact hs

theorem inv_supplyInput {s : State} (vs : List Int) (hs : s.Inv) : (s.supplyInput vs).Inv where
  table := hs.table
  latch r hr := ⟨(hs.latch r hr).1, (truthful_congr rfl rfl rfl r).trans (hs.latch r hr).2⟩
  fresh := hs.fresh

/-- Settles O49: each accepted override keeps the table accepted, and neither the entry of `run` nor a supply of input touches
what the invariant speaks of but the execution state. -/
theorem hostTransactionsKeepTheMachineInvariant : Obligations.HostTransactionsKeepTheMachineInvariant := by
  refine ⟨fun ov image s h => ?_, fun s => inv_runEnter, fun s vs => inv_supplyInput vs⟩
  obtain ⟨t, ht, rfl⟩ := construct_eq_ok h
  exact inv_reset_with image ht

/-- Settles O60: `result` reads address 0, and `readLast` is the list's last element or, where there is none, `result`. -/
theorem accessorsReadFirstAndLastCell : Obligations.AccessorsReadFirstAndLastCell := by
  refine ⟨fun s n first last hn hfirst hlast => ⟨(memRead_eq_ok_iff ..).2 ⟨le_refl 0, hfirst⟩, ?_⟩, fun s h => ?_⟩
  · have : s.tape.getLast? = some last := by rw [List.getLast?_eq_getElem?, hn]; exact hlast
    rw [State.readLast, this]
  · have hr : s.result = .error (.outOfBounds 0 .read) := memRead_outOfBounds (by simp [State.InBounds, h])
    refine ⟨hr, ?_⟩
    rw [State.readLast, h]
    exact hr

end Sys2Proof.Machine

/-! ## The pc after a default instruction -/
namespace Sys2Proof.Machine

/-- A completed ADD, MUL, LT or EQ advances past its four cells. -/
theorem threeOperand_pc {f : Int → Int → Int} {a b c : Param} {s t : State} (h : threeOperand f a b c s = .next t)
    (ht : t.fault = none) : t.pc = s.pc + 4 := by
  obtain ⟨e, -, rfl⟩ | ⟨va, e, -, -, rfl⟩ | ⟨va, vb, e, -, -, -, rfl⟩ | ⟨va, vb, u, -, -, hw, rfl⟩ := threeOperand_cases h
  · simp at ht
  · simp at ht
  · simp at ht
  · rw [State.advance_pc, (frame_writeParam hw).pc]
    omega

/-- An IN is held and leaves everything, or completes and advances past its two cells. -/
theorem execInput_pc {a : Param} {s t : State} (h : execInput a s = .next t) (ht : t.fault = none) :
    if s.inQ = [] then t = s else t.pc = s.pc + 2 := by
  obtain ⟨hq, rfl⟩ | ⟨v, q, hq, ⟨e, -, rfl⟩ | ⟨u, hw, rfl⟩⟩ := execInput_cases h
  · simp [hq]
  · simp at ht
  · rw [if_neg (by simp [hq]), State.advance_pc, (frame_writeParam hw).pc]
    simp only [Nat.cast_one]
    omega

/-- A completed OUT advances past its two cells. -/
theorem execOutput_pc {a : Param} {s t : State} (h : execOutput a s = .next t) (ht : t.fault = none) : t.pc = s.pc + 2 := by
  obtain ⟨e, -, rfl⟩ | ⟨va, -, rfl⟩ := execOutput_cases h
  · simp at ht
  · rw [State.advance_pc, State.emit_pc]
    omega

/-- A completed jump has resolved both operands; it goes to the second's value where it is taken, else past its three cells. -/
theorem conditionalJump_pc {taken : Int → Bool} {a b : Param} {s t : State} (h : conditionalJump taken a b s = .next t)
    (ht : t.fault = none) :
    ∃ va vb, s.value a = .ok va ∧ s.value b = .ok vb ∧ t.pc = if taken va then vb else s.pc + 3 := by
  obtain ⟨e, -, rfl⟩ | ⟨va, e, -, -, rfl⟩ | ⟨va, vb, ha, hb, rfl⟩ := conditionalJump_cases h
  · simp at ht
  · simp at ht
  · refine ⟨va, vb, ha, hb, ?_⟩
    split
    · exact State.jump_pc ..
    · rw [State.advance_pc]
      omega

/-- Settles O42, by one clause for each shape of instruction. -/
theorem instructionsLeaveThePcAsListed : Obligations.InstructionsLeaveThePcAsListed := by
  intro i s t _ h ht
  refine ⟨fun hop => ?_, fun hop => ?_, fun hop => ?_, ?_, ?_, ?_⟩
  · cases i with
    | add a b c => exact threeOperand_pc h ht
    | mul a b c => exact threeOperand_pc h ht
    | lt a b c => exact threeOperand_pc h ht
    | eq a b c => exact threeOperand_pc h ht
    | _ => simp [Instr.op] at hop
  · cases i with
    | output a => exact execOutput_pc h ht
    | _ => simp [Instr.op] at hop
  · cases i with
    | input a => exact execInput_pc h ht
    | _ => simp [Instr.op] at hop
  · rintro a b rfl
    simpa [isTrueCell] using conditionalJump_pc (taken := isTrueCell) h ht
  · rintro a b rfl
    simpa [isTrueCell] using conditionalJump_pc (taken := fun v => !isTrueCell v) h ht
  · rintro rfl
    simp only [exec, execHlt, Host.Outcome.next.injEq] at h
    exact h ▸ State.halt_pc ..

end Sys2Proof.Machine

/-! ## An earlier output log is never observed

`s.withEarlier earlier` is `s` with an earlier log in front of its own. Every primitive, every behaviour and every step commutes
with it: the answer from `s.withEarlier earlier` is the answer from `s` with the same log put in front. -/
namespace Sys2Proof.Machine

/-- The machine with an earlier output log in front of its own. -/
def State.withEarlier (earlier : List Int) (s : State) : State := { s with outLog := earlier ++ s.outLog }

/-- A progress with the same done to the state it reached. -/
def Progress.withEarlier (earlier : List Int) : Progress → Progress
  | .going env s => .going env (s.withEarlier earlier)
  | .done sig s => .done sig (s.withEarlier earlier)
  | .raised f s => .raised f (s.withEarlier earlier)
  | .held => .held

/-- A step's answer with the same done to the next state, if it is one. -/
def outcomeWithEarlier (earlier : List Int) : Host.Outcome State Fault Refusal → Host.Outcome State Fault Refusal
  | .next s => .next (s.withEarlier earlier)
  | .fault f => .fault f
  | .refused r => .refused r

/-! The primitives. -/

@[simp] theorem withEarlier_pc (earlier : List Int) (s : State) : (s.withEarlier earlier).pc = s.pc := rfl

@[simp] theorem withEarlier_enabled (earlier : List Int) (s : State) : (s.withEarlier earlier).enabled = s.enabled := rfl

@[simp] theorem withEarlier_fetch (earlier : List Int) (s : State) : (s.withEarlier earlier).fetch = s.fetch := rfl

@[simp] theorem withEarlier_inputReady (earlier : List Int) (s : State) :
    (s.withEarlier earlier).inputReady = s.inputReady := rfl

@[simp] theorem withEarlier_memRead (earlier : List Int) (s : State) (a : Int) :
    (s.withEarlier earlier).memRead a = s.memRead a := rfl

@[simp] theorem withEarlier_value (earlier : List Int) (s : State) (a : Param) :
    (s.withEarlier earlier).value a = s.value a := rfl

@[simp] theorem withEarlier_raise (earlier : List Int) (s : State) (f : Fault) :
    (s.withEarlier earlier).raise f = (s.raise f).withEarlier earlier := rfl

@[simp] theorem withEarlier_emit (earlier : List Int) (s : State) (v : Int) :
    (s.withEarlier earlier).emit v = (s.emit v).withEarlier earlier := by
  simp only [State.withEarlier, State.emit, List.append_assoc]

@[simp] theorem withEarlier_applySignal (earlier : List Int) (s : State) (n : Nat) (sig : Signal) :
    (s.withEarlier earlier).applySignal n sig = (s.applySignal n sig).withEarlier earlier := by
  cases sig <;> rfl

@[simp] theorem withEarlier_memWrite (earlier : List Int) (s : State) (a v : Int) :
    (s.withEarlier earlier).memWrite a v = (s.memWrite a v).map (State.withEarlier earlier) := by
  by_cases h : s.InBounds a
  · rw [memWrite_inBounds h, memWrite_inBounds (s := s.withEarlier earlier) h]
    rfl
  · rw [memWrite_outOfBounds h, memWrite_outOfBounds (s := s.withEarlier earlier) h]
    rfl

@[simp] theorem withEarlier_writeParam (earlier : List Int) (s : State) (p : Nat) (a : Param) (v : Int) :
    (s.withEarlier earlier).writeParam p a v = (s.writeParam p a v).map (State.withEarlier earlier) := by
  cases hm : a.mode with
  | immediate => simp only [writeParam_immediate hm, Except.map]
  | position => simp only [writeParam_position hm, withEarlier_memWrite]

@[simp] theorem withEarlier_takeInput (earlier : List Int) (s : State) :
    (s.withEarlier earlier).takeInput = s.takeInput.map (Prod.map id (State.withEarlier earlier)) := by
  simp only [State.takeInput, State.withEarlier]
  cases s.inQ <;> rfl

/-! The default instructions. -/

theorem threeOperand_withEarlier (earlier : List Int) (f : Int → Int → Int) (a b c : Param) (s : State) :
    threeOperand f a b c (s.withEarlier earlier) = outcomeWithEarlier earlier (threeOperand f a b c s) := by
  simp only [threeOperand, withEarlier_value, withEarlier_writeParam, withEarlier_raise]
  cases s.value a with
  | error e => rfl
  | ok va =>
    cases s.value b with
    | error e => rfl
    | ok vb => cases hw : s.writeParam 2 c (f va vb) <;> simp [hw, Except.map, outcomeWithEarlier]

theorem conditionalJump_withEarlier (earlier : List Int) (taken : Int → Bool) (a b : Param) (s : State) :
    conditionalJump taken a b (s.withEarlier earlier) = outcomeWithEarlier earlier (conditionalJump taken a b s) := by
  simp only [conditionalJump, withEarlier_value, withEarlier_raise, withEarlier_applySignal]
  cases s.value a with
  | error e => rfl
  | ok va => cases s.value b <;> rfl

theorem execInput_withEarlier (earlier : List Int) (a : Param) (s : State) :
    execInput a (s.withEarlier earlier) = outcomeWithEarlier earlier (execInput a s) := by
  simp only [execInput, withEarlier_takeInput]
  cases s.takeInput with
  | none => rfl
  | some r =>
    obtain ⟨v, u⟩ := r
    cases hw : u.writeParam 0 a v <;> simp [hw, Except.map, outcomeWithEarlier]

theorem execOutput_withEarlier (earlier : List Int) (a : Param) (s : State) :
    execOutput a (s.withEarlier earlier) = outcomeWithEarlier earlier (execOutput a s) := by
  simp only [execOutput, withEarlier_value, withEarlier_emit, withEarlier_raise, withEarlier_applySignal]
  cases s.value a <;> rfl

theorem exec_withEarlier (earlier : List Int) (i : Instr) (s : State) :
    exec i (s.withEarlier earlier) = outcomeWithEarlier earlier (exec i s) := by
  cases i with
  | add a b c => exact threeOperand_withEarlier ..
  | mul a b c => exact threeOperand_withEarlier ..
  | input a => exact execInput_withEarlier ..
  | output a => exact execOutput_withEarlier ..
  | jt a b => exact conditionalJump_withEarlier ..
  | jf a b => exact conditionalJump_withEarlier ..
  | lt a b c => exact threeOperand_withEarlier ..
  | eq a b c => exact threeOperand_withEarlier ..
  | hlt => rfl

/-! Host-supplied behaviours. -/

/-- A behaviour, or a part of one, commutes with the earlier log. -/
def Commutes (earlier : List Int) (f : Env → State → Option Progress) : Prop :=
  ∀ env s, f env (s.withEarlier earlier) = (f env s).map (Progress.withEarlier earlier)

theorem andThen_withEarlier {earlier : List Int} {k : Env → State → Option Progress} (hk : Commutes earlier k)
    (o : Option Progress) :
    Progress.andThen (o.map (Progress.withEarlier earlier)) k = (Progress.andThen o k).map (Progress.withEarlier earlier) := by
  match o with
  | some (.going env u) => exact hk env u
  | some (.done _ _) | some (.raised _ _) | some .held | none => rfl

theorem commutes_andThen {earlier : List Int} {f k : Env → State → Option Progress} (hf : Commutes earlier f)
    (hk : Commutes earlier k) : Commutes earlier fun env s => Progress.andThen (f env s) k := by
  intro env s
  show Progress.andThen (f env (s.withEarlier earlier)) k = _
  rw [hf, andThen_withEarlier hk]

theorem commutes_iterateBody {earlier : List Int} {f : Env → State → Option Progress} (hf : Commutes earlier f) :
    ∀ n, Commutes earlier (iterateBody f n)
  | 0, _, _ => rfl
  | n + 1, env, s => commutes_andThen hf (commutes_iterateBody hf n) env s

theorem commutes_iterateWhile {earlier : List Int} (test : Env → Bool) {f : Env → State → Option Progress}
    (hf : Commutes earlier f) : ∀ n, Commutes earlier (iterateWhile test f n)
  | 0, env, s => by
    unfold iterateWhile
    split <;> rfl
  | n + 1, env, s => by
    unfold iterateWhile
    split
    · exact commutes_andThen hf (commutes_iterateWhile test hf n) env s
    · rfl

theorem commutes_runCmd (earlier : List Int) (n : Nat) (l : Latched) : ∀ c : Cmd, Commutes earlier (runCmd n l c)
  | .skip, _, _ | .assign _ _, _, _ | .inputReady _, _, _ | .ret _, _, _ => rfl
  | .seq c d, env, s => commutes_andThen (commutes_runCmd earlier n l c) (commutes_runCmd earlier n l d) env s
  | .value x p, env, s => by
    simp only [runCmd, withEarlier_value]
    cases s.value (paramAt l.params p) <;> rfl
  | .writeParam p e, env, s => by
    simp only [runCmd, withEarlier_writeParam]
    cases s.writeParam p (paramAt l.params p) (evalExpr l env e) <;> rfl
  | .memRead x addr, env, s => by
    simp only [runCmd, withEarlier_memRead]
    cases s.memRead (evalExpr l env addr) <;> rfl
  | .memWrite addr e, env, s => by
    simp only [runCmd, withEarlier_memWrite]
    cases s.memWrite (evalExpr l env addr) (evalExpr l env e) <;> rfl
  | .input x, env, s => by
    simp only [runCmd, withEarlier_takeInput]
    cases s.takeInput <;> rfl
  | .output e, env, s => by
    simp only [runCmd, withEarlier_emit]
    rfl
  | .ite e c d, env, s => by
    unfold runCmd
    split
    · exact commutes_runCmd earlier n l c env s
    · exact commutes_runCmd earlier n l d env s
  | .loop e c, env, s => commutes_iterateBody (commutes_runCmd earlier n l c) _ env s
  | .whileDo e c, env, s => commutes_iterateWhile _ (commutes_runCmd earlier n l c) n env s

/-- Both behaviours end alike: an allowance that shows one ending shows the other ending. -/
theorem behave_withEarlier (earlier : List Int) (l : Latched) (c : Cmd) (s : State) :
    behave l c (s.withEarlier earlier) = (behave l c s).map (Progress.withEarlier earlier) := by
  ext p
  simp only [Option.map_eq_some_iff, behave_eq_some_iff, commutes_runCmd earlier _ l c [] s]
  constructor
  · rintro ⟨n, q, hq, rfl⟩
    exact ⟨q, ⟨n, hq⟩, rfl⟩
  · rintro ⟨q, ⟨n, hq⟩, rfl⟩
    exact ⟨n, q, hq, rfl⟩

theorem finishHosted_withEarlier (earlier : List Int) (h : HostOp) (l : Latched) (s : State) (p : Progress) :
    finishHosted h l (s.withEarlier earlier) (p.withEarlier earlier) = (finishHosted h l s p).withEarlier earlier := by
  cases p with
  | going env u => exact withEarlier_applySignal ..
  | done sig u => exact withEarlier_applySignal ..
  | raised f u => rfl
  | held => rfl

theorem execHosted_withEarlier (earlier : List Int) (h : HostOp) (w : Int) (ps : List Param) (s : State) :
    execHosted h w ps (s.withEarlier earlier) = outcomeWithEarlier earlier (execHosted h w ps s) := by
  simp only [execHosted, withEarlier_pc, behave_withEarlier]
  cases h.wf with
  | false => rfl
  | true =>
    cases behave ⟨s.pc, w, ps⟩ h.body s with
    | none => rfl
    | some p => exact congrArg Host.Outcome.next (finishHosted_withEarlier ..)

/-! The whole step. -/

theorem step_withEarlier (earlier : List Int) (s : State) :
    step (s.withEarlier earlier) = outcomeWithEarlier earlier (step s) := by
  cases he : s.enabled with
  | false =>
    simp only [step, withEarlier_enabled, he, Bool.false_eq_true, if_false]
    rfl
  | true =>
    simp only [step, withEarlier_enabled, withEarlier_fetch, he, if_true]
    match s.fetch with
    | .error f => rfl
    | .ok (.instr i) => exact exec_withEarlier ..
    | .ok (.hosted h w ps) => exact execHosted_withEarlier ..

/-- Settles O54: every step commutes with putting an earlier log in front. -/
theorem earlierOutputIsNeverObserved : Obligations.EarlierOutputIsNeverObserved := by
  intro s t earlier h
  calc step (s.withEarlier earlier)
      = outcomeWithEarlier earlier (step s) := step_withEarlier earlier s
    _ = .next (t.withEarlier earlier) := by rw [h]; rfl

end Sys2Proof.Machine

/-! PROOFS of the statements of 20_memory.md. -/

/-! ## The checked accesses to the tape, and the frame of the three-operand instructions -/
namespace Sys2Proof.Machine

/-- The two ways out of 0 to N-1: below its first address, or past its last (20_memory.md R31, R32). -/
theorem not_inBounds_of_outside {s : State} {addr : Int} (h : addr < 0 ∨ (s.tape.length : Int) ≤ addr) :
    ¬ s.InBounds addr := by
  rintro ⟨h0, hN⟩
  omega

/-! Which fault an instruction raises where a primitive fails. -/

theorem execOutput_of_value_error {a : Param} {s : State} {e : Fault} (h : s.value a = .error e) :
    execOutput a s = .next (s.raise e) := by
  simp [execOutput, h]

theorem threeOperand_of_write_error {f : Int → Int → Int} {a b c : Param} {s : State} {va vb : Int} {e : Fault}
    (ha : s.value a = .ok va) (hb : s.value b = .ok vb) (hw : s.writeParam 2 c (f va vb) = .error e) :
    threeOperand f a b c s = .next (s.raise e) := by
  simp [threeOperand, ha, hb, hw]

/-- Settles O10: a read answers the cell of the tape at its address, and outside the tape its fault, which OUT takes. -/
theorem memReadIsBoundsChecked : Obligations.MemReadIsBoundsChecked := by
  intro s addr
  constructor
  · rintro n v rfl hv
    exact (memRead_eq_ok_iff ..).2 ⟨Int.natCast_nonneg n, hv⟩
  · intro h
    have hb : ¬ s.InBounds addr := not_inBounds_of_outside h
    exact ⟨memRead_outOfBounds hb, execOutput_of_value_error (value_outOfBounds rfl hb)⟩

/-- A fetch reads first what a checked read of the pc's cell answers, then the cells after it. -/
theorem fetchCells_of_memRead {s : State} {v : Int} (h : s.memRead s.pc = .ok v) :
    s.fetchCells = v :: s.tape.drop (s.pc.toNat + 1) := by
  obtain ⟨h0, hv⟩ := (memRead_eq_ok_iff ..).1 h
  obtain ⟨hlt, rfl⟩ := List.getElem?_eq_some_iff.1 hv
  rw [State.fetchCells, if_pos h0, List.drop_eq_getElem_cons hlt]

/-- A read of the cell just written answers what was written (20_memory.md R32). -/
theorem memRead_memWrite_same {s t : State} {addr v : Int} (h : s.memWrite addr v = .ok t) : t.memRead addr = .ok v := by
  obtain ⟨hb, rfl⟩ := memWrite_eq_ok h
  exact memRead_set_same s hb v

/-- A write leaves the read of every other address, in the tape or not, as it was (20_memory.md R32). -/
theorem memRead_memWrite_other {s t : State} {addr b v : Int} (h : s.memWrite addr v = .ok t) (hne : b ≠ addr) :
    t.memRead b = s.memRead b := by
  obtain ⟨hb, rfl⟩ := memWrite_eq_ok h
  exact memRead_set_other s hne hb.1 v

/-- Settles O12: the write is what a read answers, with the pc anywhere, and a fetch reads as a read of the pc's cell. -/
theorem writeIsSeenByFetch : Obligations.WriteIsSeenByFetch := by
  intro s t addr v h
  have hread : ({ t with pc := addr } : State).memRead addr = .ok v :=
    (memRead_congr (s := t) rfl addr).trans (memRead_memWrite_same h)
  exact ⟨_, fetchCells_of_memRead hread⟩

/-- Scenario 5 (95_test_vectors.md): the first operand of the ADD lies past the tape, so its read faults before the write. -/
theorem scenario5_faults_at_first_read :
    step { State.reset with tape := [1, 5, 6, 7], runState := .running } =
      .next { State.reset with tape := [1, 5, 6, 7], runState := .running, fault := some ⟨.outOfBounds 5 .read, 0⟩ } := rfl

/-- Settles O11: the write sets its one cell or, outside the tape, fails with its fault, which ADD takes once its operands are
read. -/
theorem memWriteIsBoundsChecked : Obligations.MemWriteIsBoundsChecked := by
  refine ⟨fun s addr v h0 hN => ?_, fun s addr v x y h => ?_, scenario5_faults_at_first_read⟩
  · have hw := memWrite_inBounds ⟨h0, hN⟩ v
    exact ⟨_, hw, rfl, (frame_memWrite hw).length, memRead_memWrite_same hw, fun b => memRead_memWrite_other hw⟩
  · have hb : ¬ s.InBounds addr := not_inBounds_of_outside h
    have hw : s.writeParam 2 ⟨.position, addr⟩ (x + y) = .error (.outOfBounds addr .write) := memWrite_outOfBounds hb _
    have hval : ∀ z, s.value ⟨.immediate, z⟩ = .ok z := fun z => value_immediate rfl
    exact ⟨memWrite_outOfBounds hb v, threeOperand_of_write_error (f := fun x y => x + y) (hval x) (hval y) hw⟩

/-- A write through a parameter leaves the read of every address but the one it stores to as it was. -/
theorem memRead_writeParam_other {s t : State} {p : Nat} {c : Param} {v addr : Int} (h : s.writeParam p c v = .ok t)
    (hne : storeAddress c ≠ some addr) : t.memRead addr = s.memRead addr := by
  obtain ⟨hpos, -, -⟩ := writeParam_eq_ok h
  rw [writeParam_position hpos] at h
  have hraw : addr ≠ c.raw := by
    rintro rfl
    simp [storeAddress, hpos] at hne
  exact memRead_memWrite_other h hraw

/-- A three-operand instruction takes a fault from the state it started in, or stores through its write parameter and
advances. -/
theorem threeOperand_raises_or_stores {f : Int → Int → Int} {a b c : Param} {s t : State}
    (h : threeOperand f a b c s = .next t) :
    (∃ e, t = s.raise e) ∨ ∃ v u, s.writeParam 2 c v = .ok u ∧ t = u.applySignal 3 .advance := by
  obtain ⟨e, -, ht⟩ | ⟨_, e, -, -, ht⟩ | ⟨_, _, e, -, -, -, ht⟩ | ⟨_, _, u, -, -, hw, ht⟩ := threeOperand_cases h
  · exact .inl ⟨e, ht⟩
  · exact .inl ⟨e, ht⟩
  · exact .inl ⟨e, ht⟩
  · exact .inr ⟨_, u, hw, ht⟩

/-- ADD, MUL, LT and EQ differ only in the function of their operands. -/
theorem exec_eq_threeOperand {i : Instr} {a b c : Param}
    (hi : i = .add a b c ∨ i = .mul a b c ∨ i = .lt a b c ∨ i = .eq a b c) (s : State) : ∃ f, exec i s = threeOperand f a b c s := by
  obtain rfl | rfl | rfl | rfl := hi <;> exact ⟨_, rfl⟩

/-- Settles O27: a fault taken changes the latch alone; a store changes the cell its parameter names, and the signal then the
pc alone. -/
theorem threeOperandFrame : Obligations.ThreeOperandFrame := by
  intro i a b c s t hi h
  obtain ⟨f, hf⟩ := exec_eq_threeOperand hi s
  obtain ⟨e, rfl⟩ | ⟨v, u, hw, rfl⟩ := threeOperand_raises_or_stores (hf ▸ h)
  · exact ⟨rfl, rfl, rfl, rfl, rfl, .inr rfl, fun addr _ => memRead_congr rfl addr⟩
  · have hread : ∀ addr, storeAddress c ≠ some addr → (u.applySignal 3 .advance).memRead addr = s.memRead addr :=
      fun addr hne => (memRead_congr (s := u) rfl addr).trans (memRead_writeParam_other hw hne)
    obtain ⟨-, -, rfl⟩ := writeParam_eq_ok hw
    exact ⟨rfl, rfl, rfl, rfl, List.length_set, .inl rfl, hread⟩

end Sys2Proof.Machine

/-! PROOFS of the statements of 30_encoding.md. -/

/-! ## When a word and when cells decode -/
namespace Sys2Proof
open Machine

theorem map_eq_ok_iff {ε α β : Type} {f : α → β} {x : Except ε α} {b : β} : x.map f = .ok b ↔ ∃ a, x = .ok a ∧ f a = b := by
  cases x <;> simp [Except.map]

/-- The mode check of one position: its digit is that of its mode, and the positions after it pass theirs
(40_execution_cycle.md R64). -/
theorem decodeModes_succ_eq_ok_iff {w n p : Nat} {ms : List Mode} :
    decodeModes w (n + 1) p = .ok ms ↔
      ∃ m ms', ms = m :: ms' ∧ digit w (p + 2) = m.digit ∧ decodeModes w n (p + 1) = .ok ms' := by
  constructor
  · intro h
    unfold decodeModes at h
    split at h
    next hd =>
      obtain ⟨ms', hms', rfl⟩ := map_eq_ok_iff.1 h
      exact ⟨.position, ms', rfl, hd, hms'⟩
    next hd =>
      obtain ⟨ms', hms', rfl⟩ := map_eq_ok_iff.1 h
      exact ⟨.immediate, ms', rfl, hd, hms'⟩
    next => cases h
  · rintro ⟨m, ms', rfl, hd, h⟩
    cases m <;> simp [decodeModes, hd, Mode.digit, h, Except.map]

/-- The mode check passes exactly where each position's digit is that of its mode (30_encoding.md R46, R52). -/
theorem decodeModes_eq_ok_iff {w n p : Nat} {ms : List Mode} :
    decodeModes w n p = .ok ms ↔ ms.length = n ∧ ∀ q m, ms[q]? = some m → digit w (p + q + 2) = m.digit := by
  induction n generalizing p ms with
  | zero =>
    simp only [decodeModes, Except.ok.injEq, List.length_eq_zero_iff]
    constructor
    · rintro rfl
      simp
    · rintro ⟨rfl, -⟩
      rfl
  | succ n ih =>
    rw [decodeModes_succ_eq_ok_iff]
    have hshift : ∀ q, p + (q + 1) + 2 = p + 1 + q + 2 := by omega
    constructor
    · rintro ⟨m, ms', rfl, hd, h⟩
      obtain ⟨hlen, hdigits⟩ := ih.1 h
      refine ⟨by simp [hlen], fun q m' hm' => ?_⟩
      cases q with
      | zero => simpa [← Option.some.inj hm'] using hd
      | succ q => exact hshift q ▸ hdigits q m' hm'
    · rintro ⟨hlen, hdigits⟩
      cases ms with
      | nil => cases hlen
      | cons m ms' =>
        refine ⟨m, ms', rfl, hdigits 0 m rfl, ih.2 ⟨Nat.succ.inj hlen, fun q m' hm' => ?_⟩⟩
        exact hshift q ▸ hdigits (q + 1) m' hm'

/-- The mode check looks at the digits of its own positions and at no others (30_encoding.md R53). -/
theorem decodeModes_congr {w v n p : Nat} (h : ∀ q, q < p + n → digit w (q + 2) = digit v (q + 2)) :
    decodeModes w n p = decodeModes v n p := by
  induction n generalizing p with
  | zero => rfl
  | succ n ih =>
    simp only [decodeModes]
    rw [h p (by omega), ih fun q hq => h q (by omega)]

/-- A word whose opcode the table does not bind decodes to nothing (30_encoding.md R51). -/
theorem decodeWord_of_unbound {t : OpTable} {w : Nat} (h : lookupOp t (opcodeOf w) = none) :
    decodeWord t w = .error (.unboundOpcode (opcodeOf w)) := by
  simp [decodeWord, h, not_lt.2 (Int.natCast_nonneg w)]

/-- A word whose opcode the table binds decodes as its mode digits do (40_execution_cycle.md R63, R64). -/
theorem decodeWord_of_bound {t : OpTable} {w : Nat} {op : Operation} (h : lookupOp t (opcodeOf w) = some op) :
    decodeWord t w = (decodeModes w op.arity 0).map fun ms => (op, ms) := by
  simp [decodeWord, h, not_lt.2 (Int.natCast_nonneg w)]

/-- A word decodes exactly when it is not negative, its opcode is bound, and each digit of a used position is that of its
mode (30_encoding.md R44 to R46, R50 to R52). -/
theorem decodeWord_eq_ok_iff {t : OpTable} {w : Int} {op : Operation} {ms : List Mode} :
    decodeWord t w = .ok (op, ms) ↔
      ∃ n : Nat, w = n ∧ lookupOp t (opcodeOf n) = some op ∧ ms.length = op.arity ∧
        ∀ p m, ms[p]? = some m → digit n (p + 2) = m.digit := by
  constructor
  · intro h
    obtain ⟨h0, hop, hms⟩ := decodeWord_ok h
    obtain ⟨hlen, hdigits⟩ := decodeModes_eq_ok_iff.1 hms
    exact ⟨w.toNat, (Int.toNat_of_nonneg h0).symm, hop, hlen, by simpa using hdigits⟩
  · rintro ⟨n, rfl, hop, hlen, hdigits⟩
    have hms : decodeModes n op.arity 0 = .ok ms := decodeModes_eq_ok_iff.2 ⟨hlen, by simpa using hdigits⟩
    rw [decodeWord_of_bound hop, hms]
    rfl

/-- Cells decode exactly when they are a word that decodes, then one raw parameter for each of its modes (30_encoding.md
R42). -/
theorem decodeCells_eq_ok_iff {t : OpTable} {cells rest : List Int} {d : Decoded} :
    decodeCells t cells = .ok (d, rest) ↔
      ∃ w op ps, cells = w :: (ps.map Param.raw ++ rest) ∧ decodeWord t w = .ok (op, ps.map Param.mode) ∧
        d = Decoded.ofOperation op w ps := by
  constructor
  · intro h
    cases cells with
    | nil => cases h
    | cons w cells =>
      unfold decodeCells at h
      cases hw : decodeWord t w with
      | error e => simp [hw] at h
      | ok r =>
        simp only [hw] at h
        obtain ⟨⟨ps, rest'⟩, hps, hd⟩ := map_eq_ok_iff.1 h
        obtain ⟨rfl, rfl⟩ := Prod.mk.inj hd
        obtain ⟨hmodes, rfl⟩ := takeParams_ok hps
        exact ⟨w, r.1, ps, rfl, by rw [hmodes, hw], rfl⟩
  · rintro ⟨w, op, ps, rfl, hw, rfl⟩
    simp [decodeCells, hw, takeParams_encode, Except.map]

/-- The decoder does not look at the cells after the instruction. -/
theorem decodeCells_append {t : OpTable} {cells rest : List Int} {d : Decoded} (h : decodeCells t cells = .ok (d, rest))
    (extra : List Int) : decodeCells t (cells ++ extra) = .ok (d, rest ++ extra) := by
  obtain ⟨w, op, ps, rfl, hw, rfl⟩ := decodeCells_eq_ok_iff.1 h
  exact decodeCells_eq_ok_iff.2 ⟨w, op, ps, by simp, hw, rfl⟩

/-- A word that decodes has as many modes as the arity of its operation. -/
theorem length_modes_of_decodeWord {t : OpTable} {w : Int} {op : Operation} {ms : List Mode}
    (h : decodeWord t w = .ok (op, ms)) : ms.length = op.arity := by
  obtain ⟨-, -, -, hlen, -⟩ := decodeWord_eq_ok_iff.1 h
  exact hlen

/-- Cells decode to a default instruction exactly when they are a word that decodes to its operation and its modes, then its raw
parameters. -/
theorem decodeCells_eq_instr_iff {t : OpTable} {cells rest : List Int} {i : Instr} :
    decodeCells t cells = .ok (.instr i, rest) ↔
      ∃ w, cells = w :: (i.params.map Param.raw ++ rest) ∧ decodeWord t w = .ok (.default i.op, i.params.map Param.mode) := by
  rw [decodeCells_eq_ok_iff]
  constructor
  · rintro ⟨w, op, ps, rfl, hw, hd⟩
    cases op with
    | hosted h => cases hd
    | default o =>
      have hlen : ps.length = o.arity := by simpa [Operation.arity] using length_modes_of_decodeWord hw
      obtain rfl : i = Instr.ofParams o ps := Decoded.instr.inj hd
      rw [op_ofParams, params_ofParams hlen]
      exact ⟨w, rfl, hw⟩
  · rintro ⟨w, hcells, hw⟩
    exact ⟨w, _, _, hcells, hw, by simp [Decoded.ofOperation]⟩

/-- Cells that decode to a host-supplied operation are the latched word, then the latched raw parameters. -/
theorem cells_of_decodeCells_hosted {t : OpTable} {cells rest : List Int} {h : HostOp} {w : Int} {ps : List Param}
    (hd : decodeCells t cells = .ok (.hosted h w ps, rest)) : cells = w :: (ps.map Param.raw ++ rest) := by
  obtain ⟨w', op, ps', rfl, -, hop⟩ := decodeCells_eq_ok_iff.1 hd
  cases op with
  | default o => cases hop
  | hosted h' =>
    obtain ⟨-, rfl, rfl⟩ := Decoded.hosted.inj hop
    rfl

end Sys2Proof

/-! ## The digits of the canonical word -/
namespace Sys2Proof

/-- The digit of index p of the mode digits is that of the mode at position p (30_encoding.md R43, R46). -/
theorem digit_modeDigits {ps : List Param} {p : Nat} {a : Param} (h : ps[p]? = some a) :
    digit (modeDigits ps) p = a.mode.digit := by
  induction ps generalizing p with
  | nil => simp at h
  | cons b ps ih =>
    have hb := mode_digit_lt b.mode
    cases p with
    | zero =>
      obtain rfl : b = a := by simpa using h
      simp only [digit, modeDigits, pow_zero, Nat.div_one]
      omega
    | succ p =>
      have htens : (b.mode.digit + 10 * modeDigits ps) / 10 = modeDigits ps := by omega
      rw [← ih (by simpa using h), digit, digit, modeDigits, pow_succ', ← Nat.div_div_eq_div_mul, htens]

/-- The two low digits hold the opcode, so the digits of the word from index 2 on are the mode digits (30_encoding.md R43). -/
theorem digit_word (i : Instr) (p : Nat) : digit i.word (p + 2) = digit (modeDigits i.params) p := by
  have hop := opcode_lt i.op
  have hhigh : i.word / 10 ^ 2 = modeDigits i.params := by
    simp only [Instr.word]
    omega
  rw [digit, digit, Nat.add_comm, pow_add, ← Nat.div_div_eq_div_mul, hhigh]

/-- The digits below index n do not see a multiple of 10 ^ n. -/
theorem digit_add_pow_mul {j n : Nat} (h : j < n) (w k : Nat) : digit (w + 10 ^ n * k) j = digit w j := by
  have hsplit : 10 ^ n * k = 10 ^ j * (10 * (10 ^ (n - (j + 1)) * k)) := by
    rw [← mul_assoc, ← mul_assoc, ← pow_succ, ← pow_add, Nat.add_sub_of_le h]
  rw [digit, hsplit, Nat.add_mul_div_left _ _ (by positivity), Nat.add_mul_mod_self_left, digit]

/-- The opcode does not see a multiple of 10 ^ (n + 2). -/
theorem opcodeOf_add_pow_mul (w n k : Nat) : opcodeOf (w + 10 ^ (n + 2) * k) = opcodeOf w := by
  have hsplit : 10 ^ (n + 2) * k = 100 * (10 ^ n * k) := by ring
  rw [opcodeOf, hsplit, Nat.add_mul_mod_self_left, opcodeOf]

/-- The default table binds an opcode to a default operation exactly when the opcode is that operation's (10_state.md R21). -/
theorem lookup_default_eq_default_iff {o : Nat} {op : OpName} :
    lookupOp defaultTable o = some (.default op) ↔ o = op.opcode := by
  constructor
  · intro h
    obtain ⟨n, hn, ho⟩ := lookup_default_some h
    obtain rfl : op = n := Operation.default.inj hn
    exact_mod_cast ho
  · rintro rfl
    exact lookup_default_opcode op

/-- A table binds nothing to an opcode that is none of its keys. -/
theorem lookupOp_eq_none_iff {t : OpTable} {o : Int} : lookupOp t o = none ↔ o ∉ t.map Prod.fst := by
  induction t with
  | nil => simp [lookupOp]
  | cons e t ih =>
    by_cases hk : e.1 = o
    · simp [lookupOp, hk]
    · simp [lookupOp, hk, Ne.symm hk, ih]

/-- The opcodes of 0 to 99 that the default table does not bind (30_encoding.md R51). -/
theorem lookup_default_eq_none_iff {o : Nat} (h : o < 100) :
    lookupOp defaultTable o = none ↔ o = 0 ∨ (9 ≤ o ∧ o ≤ 98) := by
  have hkeys : defaultTable.map Prod.fst = [1, 2, 3, 4, 5, 6, 7, 8, 99] := rfl
  simp only [lookupOp_eq_none_iff, hkeys, List.mem_cons, List.not_mem_nil, or_false, not_or]
  omega

end Sys2Proof

/-! ## The round trip of the encoding, and what a decoded word and decoded cells hold -/
namespace Sys2Proof
open Machine

/-- Settles O2: cells that decode are a word that decodes and its raw parameters, and the default table binds only an
operation's own opcode to it. -/
theorem decodedCellsCarryTheInstruction : Obligations.DecodedCellsCarryTheInstruction := by
  intro cells rest i
  rw [decodeCells_eq_instr_iff]
  constructor
  · rintro ⟨w, rfl, hw⟩
    obtain ⟨n, rfl, hop, -, hdigits⟩ := decodeWord_eq_ok_iff.1 hw
    refine ⟨n, rfl, lookup_default_eq_default_iff.1 hop, fun p a ha => hdigits p a.mode ?_⟩
    rw [List.getElem?_map, ha, Option.map_some]
  · rintro ⟨n, rfl, hop, hdigits⟩
    refine ⟨n, rfl, decodeWord_eq_ok_iff.2 ⟨n, rfl, lookup_default_eq_default_iff.2 hop, ?_, fun p m hm => ?_⟩⟩
    · rw [List.length_map]
      exact instr_params_length i
    · rw [List.getElem?_map] at hm
      obtain ⟨a, ha, rfl⟩ := Option.map_eq_some_iff.1 hm
      exact hdigits p a ha

/-- Settles O1: the encoding is a word that spells the instruction, and its raw parameters, which is what the decoder asks. -/
theorem decodeOfEncodeIsTheInstruction : Obligations.DecodeOfEncodeIsTheInstruction := by
  intro i rest
  have hmodes : ∀ p a, i.params[p]? = some a → digit i.word (p + 2) = a.mode.digit := fun p a ha =>
    (digit_word i p).trans (digit_modeDigits ha)
  exact (decodedCellsCarryTheInstruction _ rest i).2 ⟨i.word, rfl, Laws.Layout.opcodeOf_word i, hmodes⟩

/-- Settles O4: the opcode is what the table is asked for, and the digit of each used position that of its mode. -/
theorem wordFieldsAreDecimalDigits : Obligations.WordFieldsAreDecimalDigits := by
  refine ⟨fun w => ⟨rfl, Nat.le_of_lt_succ (Nat.mod_lt w (by decide))⟩, rfl, fun w p hw => ?_, fun t w => ⟨fun hnone => ?_, ?_⟩⟩
  · rw [digit, Nat.div_eq_of_lt hw]
  · exact decodeWord_of_unbound hnone
  · intro op ms h
    obtain ⟨n, hn, hop, hlen, hdigits⟩ := decodeWord_eq_ok_iff.1 h
    obtain rfl : w = n := Int.ofNat.inj hn
    refine ⟨hop, hlen, fun p m hm => ?_⟩
    cases m with
    | position => exact .inl ⟨rfl, hdigits p _ hm⟩
    | immediate => exact .inr ⟨rfl, hdigits p _ hm⟩

/-- Settles O5: both kinds of operation decode from a word and as many raw parameters as the arity, which the encoder writes. -/
theorem instructionOccupiesOnePlusArityCells : Obligations.InstructionOccupiesOnePlusArityCells := by
  refine ⟨fun t cells rest i h => ?_, fun t cells rest h w ps hd => ?_, fun i => ?_, rfl, rfl, rfl, rfl, rfl, rfl, rfl, rfl, rfl⟩
  · obtain ⟨w, hcells, hw⟩ := decodeCells_eq_instr_iff.1 h
    obtain ⟨-, hop, -⟩ := decodeWord_ok hw
    exact ⟨w, hcells, instr_params_length i, hop⟩
  · obtain ⟨hop, hlen⟩ := decodeCells_hosted hd
    exact ⟨cells_of_decodeCells_hosted hd, hlen, hop⟩
  · rw [encode, List.length_cons, List.length_map, instr_params_length, Nat.add_comm]

/-- Settles O6: the opcode has the two low digits and the modes the next ones, all below the weight added. -/
theorem unexaminedDigitsAreIgnored : Obligations.UnexaminedDigitsAreIgnored := by
  intro t w k op hop
  have hop' : lookupOp t (opcodeOf (w + 10 ^ (op.arity + 2) * k)) = some op := by
    rw [opcodeOf_add_pow_mul]
    exact hop
  rw [decodeWord_of_bound hop', decodeWord_of_bound hop,
    decodeModes_congr fun q hq => digit_add_pow_mul (by omega) w k]

/-- Settles O3: each word's digits are read off by evaluation. -/
theorem writtenOutWordsDecode : Obligations.WrittenOutWordsDecode :=
  ⟨rfl, rfl, rfl, rfl, rfl, rfl, rfl, rfl, rfl, rfl, rfl, rfl, rfl⟩

end Sys2Proof

/-! ## A step on a word that does not decode, and on a word the host places -/
namespace Sys2Proof.Machine

/-- An enabled step whose fetch fails raises that fault. -/
theorem step_of_fetch_error {s : State} {f : Fault} (he : s.enabled = true) (h : s.fetch = .error f) :
    step s = .next (s.raise f) := by
  simp [step, he, h]

/-- An enabled step runs the default instruction it fetches (40_execution_cycle.md R60). -/
theorem step_of_fetch_instr {s : State} {i : Instr} (he : s.enabled = true) (h : s.fetch = .ok (.instr i)) :
    step s = exec i s := by
  simp [step, he, h]

/-- A fetch answers what its cells decode to. -/
theorem fetch_of_decodeCells {s : State} {d : Decoded} {rest : List Int}
    (h : decodeCells s.optable s.fetchCells = .ok (d, rest)) : s.fetch = .ok d := by
  simp [State.fetch, h]

/-- A fetch fails as the word at the pc does. -/
theorem fetch_of_decodeWord_error {s : State} {w : Int} {e : DecodeError} (hw : s.memRead s.pc = .ok w)
    (h : decodeWord s.optable w = .error e) : s.fetch = .error (faultOfDecode s.pc e) := by
  simp [State.fetch, fetchCells_of_memRead hw, decodeCells, h]

/-- Settles O7: the word at the pc decodes to nothing, so the fetch fails and the step raises its fault. -/
theorem unboundOpcodeFaults : Obligations.UnboundOpcodeFaults := by
  refine ⟨fun o => lookup_default_eq_none_iff, fun s w he hw hnone => ?_⟩
  exact step_of_fetch_error he (fetch_of_decodeWord_error hw (decodeWord_of_unbound hnone))

/-- The cells placed at an address are what the tape holds from there on. -/
theorem drop_placeCells (tape : List Int) (p : Nat) (cells : List Int) :
    (placeCells tape p cells).drop p = cells ++ tape.drop (p + cells.length) := by
  have hlen : (tape.take p ++ List.replicate (p - tape.length) 0).length = p := by
    simp only [List.length_append, List.length_take, List.length_replicate]
    omega
  rw [placeCells, List.append_assoc, List.drop_left' hlen]

/-- A fetch reads the placed cells first. -/
theorem fetchCells_withFetchWord (s : State) (nbits w : Nat) :
    ∃ after, (s.withFetchWord nbits w).fetchCells = tableCells w ++ after := by
  refine ⟨s.tape.drop (s.pc.toNat + (tableCells w).length), ?_⟩
  rw [State.fetchCells, State.withFetchWord_pc, if_pos (Int.natCast_nonneg _), Int.toNat_natCast, State.withFetchWord_tape,
    drop_placeCells]

theorem decodeCells_of_decodeTableWord {nbits w : Nat} {i : Instr} (h : decodeTableWord nbits w = some i) :
    ∃ rest, decodeCells defaultTable (tableCells w) = .ok (.instr i, rest) := by
  unfold decodeTableWord at h
  split at h
  next j rest hd => exact ⟨rest, Option.some.inj h ▸ hd⟩
  next => cases h
  next => cases h

/-- Settles O20: the placed cells stand first where the step fetches, and the decoder does not look at those after them. -/
theorem placedWordRunsAtTheNextStep : Obligations.PlacedWordRunsAtTheNextStep := by
  intro s nbits w i ht h
  obtain ⟨rest, hd⟩ := decodeCells_of_decodeTableWord h
  obtain ⟨after, hcells⟩ := fetchCells_withFetchWord s nbits w
  have hfetch : (s.withFetchWord nbits w).fetch = .ok (.instr i) := by
    refine fetch_of_decodeCells (rest := rest ++ after) ?_
    rw [State.withFetchWord_optable, ht, hcells]
    exact decodeCells_append hd after
  exact step_of_fetch_instr rfl hfetch

end Sys2Proof.Machine

/-! PROOFS of the statements of 40_execution_cycle.md. -/

/-! ## What a step runs, and what it leaves of the execution state -/
namespace Sys2Proof.Machine

/-- Where no step is enabled, a step answers the same state. -/
theorem step_of_not_enabled {s : State} (h : s.enabled = false) : step s = .next s := by
  simp [step, h]

/-- An enabled step runs the host-supplied operation it fetches (40_execution_cycle.md R60). -/
theorem step_of_fetch_hosted {s : State} {h : HostOp} {w : Int} {ps : List Param} (he : s.enabled = true)
    (hf : s.fetch = .ok (.hosted h w ps)) : step s = execHosted h w ps s := by
  simp [step, he, hf]

/-- With the pc at an address of ℕ, a fetch reads the tape from there on. -/
theorem fetchCells_of_pc_eq_natCast {s : State} {n : Nat} (h : s.pc = n) : s.fetchCells = s.tape.drop n := by
  simp [State.fetchCells, h]

/-- IN on an empty queue is held. -/
theorem execInput_of_inQ_nil {s : State} (h : s.inQ = []) (a : Param) : execInput a s = .next s := by
  simp [execInput, (takeInput_eq_none_iff s).2 h]

theorem fetch_eq_ok_iff {s : State} {d : Decoded} :
    s.fetch = .ok d ↔ ∃ rest, decodeCells s.optable s.fetchCells = .ok (d, rest) := by
  constructor
  · intro h
    unfold State.fetch at h
    split at h
    next d' rest hd =>
      obtain rfl : d' = d := Except.ok.inj h
      exact ⟨rest, hd⟩
    next => cases h
  · rintro ⟨rest, h⟩
    exact fetch_of_decodeCells h

/-- The first cell a fetch reads is what a checked read of the pc's cell answers. -/
theorem memRead_pc_of_fetchCells {s : State} {v : Int} {cells : List Int} (h : s.fetchCells = v :: cells) :
    s.memRead s.pc = .ok v := by
  have hb : s.InBounds s.pc := by
    by_contra hn
    simp [(fetchCells_nil_iff s).2 hn] at h
  obtain ⟨u, -, hu⟩ := memRead_inBounds hb
  obtain ⟨rfl, -⟩ := List.cons.inj ((fetchCells_of_memRead hu).symm.trans h)
  exact hu

/-- With the default table a fetch answers a default instruction, and the cell at the pc carries its opcode. -/
theorem fetch_eq_ok_of_default {s : State} {d : Decoded} (ht : s.optable = defaultTable) (h : s.fetch = .ok d) :
    ∃ (i : Instr) (w : Nat), d = .instr i ∧ s.memRead s.pc = .ok (w : Int) ∧ w % 100 = i.op.opcode := by
  cases d with
  | hosted g w ps =>
    obtain ⟨hop, -⟩ := fetch_hosted h
    obtain ⟨n, hn, -⟩ := lookup_default_some (ht ▸ hop)
    cases hn
  | instr i =>
    obtain ⟨rest, hd⟩ := fetch_eq_ok_iff.1 h
    obtain ⟨w, hcells, hop, -⟩ := (decodedCellsCarryTheInstruction _ _ i).1 (ht ▸ hd)
    exact ⟨i, w, rfl, memRead_pc_of_fetchCells hcells, hop⟩

/-- A conditional jump takes a fault, or moves the pc and nothing else. -/
theorem conditionalJump_raises_or_moves {taken : Int → Bool} {a b : Param} {s t : State}
    (h : conditionalJump taken a b s = .next t) : (∃ e, t = s.raise e) ∨ ∃ target, t = { s with pc := target } := by
  obtain ⟨e, -, ht⟩ | ⟨_, e, -, -, ht⟩ | ⟨va, vb, -, -, ht⟩ := conditionalJump_cases h
  · exact .inl ⟨e, ht⟩
  · exact .inl ⟨e, ht⟩
  · cases hv : taken va <;> rw [hv] at ht <;> exact .inr ⟨_, ht⟩

theorem conditionalJump_runState {taken : Int → Bool} {a b : Param} {s t : State}
    (h : conditionalJump taken a b s = .next t) : t.runState = s.runState := by
  obtain ⟨e, rfl⟩ | ⟨target, rfl⟩ := conditionalJump_raises_or_moves h <;> rfl

theorem threeOperand_runState {f : Int → Int → Int} {a b c : Param} {s t : State} (h : threeOperand f a b c s = .next t) :
    t.runState = s.runState := by
  obtain ⟨e, rfl⟩ | ⟨v, u, hw, rfl⟩ := threeOperand_raises_or_stores h
  · rfl
  · exact (frame_writeParam hw).runState

theorem execInput_runState {a : Param} {s t : State} (h : execInput a s = .next t) : t.runState = s.runState := by
  obtain ⟨-, rfl⟩ | ⟨v, q, -, ⟨e, -, rfl⟩ | ⟨u, hw, rfl⟩⟩ := execInput_cases h
  · rfl
  · rfl
  · exact (frame_writeParam hw).runState

theorem execOutput_runState {a : Param} {s t : State} (h : execOutput a s = .next t) : t.runState = s.runState := by
  obtain ⟨e, -, rfl⟩ | ⟨va, -, rfl⟩ := execOutput_cases h <;> rfl

/-- Of the default instructions only HLT moves the execution state (40_execution_cycle.md R72). -/
theorem exec_runState_of_ne_hlt {i : Instr} {s t : State} (h : exec i s = .next t) (hi : i ≠ .hlt) :
    t.runState = s.runState := by
  cases i with
  | add a b c => exact threeOperand_runState h
  | mul a b c => exact threeOperand_runState h
  | input a => exact execInput_runState h
  | output a => exact execOutput_runState h
  | jt a b => exact conditionalJump_runState h
  | jf a b => exact conditionalJump_runState h
  | lt a b c => exact threeOperand_runState h
  | eq a b c => exact threeOperand_runState h
  | hlt => exact absurd rfl hi

/-- HLT answers the halted machine, its pc at the HLT (45_halt.md R89). -/
theorem eq_halted_of_exec_hlt {s t : State} (h : exec .hlt s = .next t) : t = { s with runState := .halted } :=
  (Host.Outcome.next.inj h).symm

/-- With the default table a step that changes anything goes from running to running, or halts on the HLT at its pc. -/
theorem step_default_cases {s t : State} (ht : s.optable = defaultTable) (h : step s = .next t) :
    t = s ∨ t.runState = .running ∨
      (t = { s with runState := .halted } ∧ ∃ w : Nat, s.memRead s.pc = .ok (w : Int) ∧ w % 100 = 99) := by
  cases he : s.enabled with
  | false =>
    rw [step_of_not_enabled he] at h
    exact .inl (Host.Outcome.next.inj h).symm
  | true =>
    obtain ⟨hrun, -⟩ := (enabled_iff s).1 he
    cases hf : s.fetch with
    | error f =>
      rw [step_of_fetch_error he hf] at h
      exact .inr (.inl (Host.Outcome.next.inj h ▸ hrun))
    | ok d =>
      obtain ⟨i, w, rfl, hw, hop⟩ := fetch_eq_ok_of_default ht hf
      rw [step_of_fetch_instr he hf] at h
      by_cases hi : i = .hlt
      · subst hi
        exact .inr (.inr ⟨eq_halted_of_exec_hlt h, w, hw, hop⟩)
      · exact .inr (.inl ((exec_runState_of_ne_hlt h hi).trans hrun))

theorem defaultInv_step {s t : State} (hs : s.DefaultInv) (h : step s = .next t) : t.DefaultInv := by
  obtain ⟨u, hu, -, htable, -, -⟩ := step_reached (hs.table ▸ defaultTable_wf) h
  have ht : t.optable = defaultTable := (htable.trans hu.optable).trans hs.table
  obtain rfl | hrun | ⟨rfl, hhlt⟩ := step_default_cases hs.table h
  · exact hs
  · exact ⟨ht, by simp [hrun], by simp [hrun]⟩
  · exact ⟨ht, by simp, fun _ => hhlt⟩

/-- A default machine that has not begun to run, or runs, meets the invariant whatever its tape. -/
theorem defaultInv_of_not_stopped {s : State} (ht : s.optable = defaultTable)
    (h : s.runState = .uninitialized ∨ s.runState = .running) : s.DefaultInv := by
  obtain h | h := h <;> exact ⟨ht, by simp [h], by simp [h]⟩

/-- Settles O51: with the default table a step goes on running or halts on the HLT at its pc, and a constructed machine is
uninitialized until it enters `run`. -/
theorem defaultMachineNeverSuspends : Obligations.DefaultMachineNeverSuspends := by
  refine ⟨fun s t => defaultInv_step, fun image s h => ?_⟩
  obtain rfl : { State.reset with tape := image } = s := Except.ok.inj h
  exact ⟨defaultInv_of_not_stopped rfl (.inl rfl), defaultInv_of_not_stopped rfl (.inr rfl)⟩

/-- Settles O19: the primitives leave the execution state, the pc and the latch alone; then a raise sets the latch, or a signal
moves the pc or the execution state. -/
theorem stepMovesRunStateOnlyByItsTable : Obligations.StepMovesRunStateOnlyByItsTable := by
  intro s t hw h
  obtain ⟨-, rfl⟩ | ⟨he, n, -, heff⟩ := step_cases hw h
  · exact ⟨.inl rfl, fun hne => absurd rfl hne⟩
  obtain ⟨hrun, hnone⟩ := (enabled_iff s).1 he
  cases heff with
  | held => exact ⟨.inl rfl, fun hne => absurd rfl hne⟩
  | raised u f hf _ => exact ⟨.inl hf.runState, fun _ => ⟨hrun, hnone, hf.runState.trans hrun, hf.pc⟩⟩
  | signalled u sig hf =>
    refine ⟨?_, fun hne => absurd ((State.applySignal_fault u n sig).trans hf.fault) hne⟩
    have hfault : u.fault = none := hf.fault.trans hnone
    cases sig with
    | advance => exact .inl hf.runState
    | jump target => exact .inl hf.runState
    | halt => exact .inr ⟨hrun, hnone, .inl rfl, hf.pc, hfault⟩
    | suspend => exact .inr ⟨hrun, hnone, .inr rfl, hf.pc, hfault⟩

/-- What OUT, JT, JF and HLT can do: take a fault, emit and advance (OUT alone), move the pc, or halt (HLT alone). -/
theorem exec_nonStoring_cases {i : Instr} {a b : Param} {s t : State}
    (hi : i = .output a ∨ i = .jt a b ∨ i = .jf a b ∨ i = .hlt) (h : exec i s = .next t) :
    (i ≠ .hlt ∧ ∃ e, t = s.raise e) ∨ (i = .output a ∧ ∃ v, t = (s.emit v).applySignal 1 .advance) ∨
      (i ≠ .hlt ∧ ∃ target, t = { s with pc := target }) ∨ (i = .hlt ∧ t = { s with runState := .halted }) := by
  have hjump {taken : Int → Bool} (hne : i ≠ .hlt) (hj : conditionalJump taken a b s = .next t) :=
    (conditionalJump_raises_or_moves hj).imp (And.intro hne) (And.intro hne)
  obtain rfl | rfl | rfl | rfl := hi
  · obtain ⟨e, -, ht⟩ | ⟨v, -, ht⟩ := execOutput_cases h
    · exact .inl ⟨Instr.noConfusion, e, ht⟩
    · exact .inr (.inl ⟨rfl, v, ht⟩)
  · exact (hjump Instr.noConfusion h).imp id fun ht => .inr (.inl ht)
  · exact (hjump Instr.noConfusion h).imp id fun ht => .inr (.inl ht)
  · exact .inr (.inr (.inr ⟨rfl, eq_halted_of_exec_hlt h⟩))

/-- Settles O34: none of the four things these instructions can do stores. -/
theorem nonStoringFrame : Obligations.NonStoringFrame := by
  intro i a b s t hi h
  obtain ⟨hne, e, rfl⟩ | ⟨rfl, v, rfl⟩ | ⟨hne, target, rfl⟩ | ⟨rfl, rfl⟩ := exec_nonStoring_cases hi h
  · exact ⟨rfl, memRead_congr rfl, rfl, rfl, fun _ => rfl, fun _ => rfl, fun hi => absurd hi hne, .inr rfl⟩
  · exact ⟨rfl, memRead_congr rfl, rfl, rfl, fun hi => absurd rfl hi, fun _ => rfl, Instr.noConfusion, .inl rfl⟩
  · exact ⟨rfl, memRead_congr rfl, rfl, rfl, fun _ => rfl, fun _ => rfl, fun hi => absurd hi hne, .inl rfl⟩
  · exact ⟨rfl, memRead_congr rfl, rfl, rfl, fun _ => rfl, fun hi => absurd rfl hi, fun _ => ⟨rfl, rfl⟩, .inl rfl⟩

/-- Settles O15: a held operation answers the state the step began in, as a step that is not enabled does. -/
theorem stepIsEnabledExactlyWhenRunning : Obligations.StepIsEnabledExactlyWhenRunning := by
  refine ⟨enabled_iff, fun s => step_of_not_enabled, fun s a hf hq => ?_, fun s h w ps hw hf hb => ?_⟩
  · cases he : s.enabled with
    | false => exact step_of_not_enabled he
    | true => exact (step_of_fetch_instr he hf).trans (execInput_of_inQ_nil hq a)
  · cases he : s.enabled with
    | false => exact step_of_not_enabled he
    | true => exact (step_of_fetch_hosted he hf).trans (execHosted_of_behave hw hb)

/-- Settles O16: the cells from the pc on are what the fetch decodes. -/
theorem stepRunsTheDecodedInstruction : Obligations.StepRunsTheDecodedInstruction := by
  intro s n he hpc
  rw [← fetchCells_of_pc_eq_natCast hpc]
  exact ⟨fun i rest hd => step_of_fetch_instr he (fetch_of_decodeCells hd),
    fun h w ps rest hd => step_of_fetch_hosted he (fetch_of_decodeCells hd)⟩

end Sys2Proof.Machine

/-! ## The operands, and the cells they are fetched from -/
namespace Sys2Proof.Machine

/-- Settles O13: the mode says where an operand comes from, and a position operand is a checked read. -/
theorem valueFollowsTheMode : Obligations.ValueFollowsTheMode := by
  refine fun s a => ⟨value_immediate, fun n v hm hraw hv => ?_, fun hm h => value_outOfBounds hm (not_inBounds_of_outside h)⟩
  rw [value_position hm, memRead_eq_ok_iff, hraw]
  exact ⟨Int.natCast_nonneg n, hv⟩

/-- Settles O14: the mode is tested first, and a position target is a checked write. -/
theorem writeParamFollowsTheMode : Obligations.WriteParamFollowsTheMode := by
  refine fun s p a v => ⟨fun hm => writeParam_immediate hm p v, fun n hm hraw hn => ?_, fun hm h => ?_⟩
  · have hb : s.InBounds a.raw := ⟨by omega, by omega⟩
    rw [writeParam_position hm, memWrite_inBounds hb, hraw, Int.toNat_natCast]
  · rw [writeParam_position hm, memWrite_outOfBounds (not_inBounds_of_outside h)]

/-- The parameter fetch succeeds where there is a cell for each mode (40_execution_cycle.md R65). -/
theorem takeParams_of_length_le {ms : List Mode} {cells : List Int} (p : Nat) (h : ms.length ≤ cells.length) :
    ∃ r, takeParams p ms cells = .ok r := by
  induction ms generalizing p cells with
  | nil => exact ⟨_, rfl⟩
  | cons m ms ih =>
    cases cells with
    | nil => simp at h
    | cons v cells =>
      obtain ⟨r, hr⟩ := ih (p + 1) (Nat.le_of_succ_le_succ h)
      exact ⟨_, by rw [takeParams, hr]; rfl⟩

/-- The parameter fetch fails at the first missing cell where there are fewer cells than modes (40_execution_cycle.md R65). -/
theorem takeParams_of_length_lt {ms : List Mode} {cells : List Int} (p : Nat) (h : cells.length < ms.length) :
    takeParams p ms cells = .error (.missingParameter (p + cells.length)) := by
  cases hr : takeParams p ms cells with
  | error e => rw [takeParams_error hr]
  | ok r =>
    obtain ⟨rfl, rfl⟩ := takeParams_ok hr
    simp at h

/-- A fetch answers the operation of the word at the pc with the parameters the cells after it give. -/
theorem fetch_of_takeParams {s : State} {w : Int} {op : Operation} {ms : List Mode} {r : List Param × List Int}
    (hw : s.memRead s.pc = .ok w) (hd : decodeWord s.optable w = .ok (op, ms))
    (hp : takeParams 0 ms (s.tape.drop (s.pc.toNat + 1)) = .ok r) : s.fetch = .ok (Decoded.ofOperation op w r.1) := by
  simp [State.fetch, fetchCells_of_memRead hw, decodeCells, hd, hp, Except.map]

/-- A fetch fails as the parameter fetch after the word at the pc does. -/
theorem fetch_of_takeParams_error {s : State} {w : Int} {op : Operation} {ms : List Mode} {e : DecodeError}
    (hw : s.memRead s.pc = .ok w) (hd : decodeWord s.optable w = .ok (op, ms))
    (hp : takeParams 0 ms (s.tape.drop (s.pc.toNat + 1)) = .error e) : s.fetch = .error (faultOfDecode s.pc e) := by
  simp [State.fetch, fetchCells_of_memRead hw, decodeCells, hd, hp, Except.map]

/-- Settles O18: the cells after the word are one for each parameter, or run out at the lowest missing one. -/
theorem parametersAreTheCellsAfterTheWord : Obligations.ParametersAreTheCellsAfterTheWord := by
  intro s w op ms hw hd
  have hlen : ms.length = op.arity := length_modes_of_decodeWord hd
  have h0 : 0 ≤ s.pc := ((memRead_eq_ok_iff ..).1 hw).1
  have hcells : (s.tape.drop (s.pc.toNat + 1)).length = s.tape.length - (s.pc.toNat + 1) := List.length_drop
  refine ⟨fun hfit => ?_, fun p hp hend he => ?_⟩
  · obtain ⟨⟨ps, rest⟩, hr⟩ := takeParams_of_length_le (ms := ms) (cells := s.tape.drop (s.pc.toNat + 1)) 0 (by omega)
    obtain ⟨hmodes, hraws⟩ := takeParams_ok hr
    refine ⟨ps, fetch_of_takeParams hw hd hr, hmodes, by rw [← hlen, ← hmodes, List.length_map], fun p a ha => ?_⟩
    have hraw : (s.tape.drop (s.pc.toNat + 1))[p]? = some a.raw := by
      rw [hraws, List.getElem?_append_left (by simpa using (List.getElem?_eq_some_iff.1 ha).1), List.getElem?_map, ha]
      rfl
    have haddr : (s.pc + 1 + p).toNat = s.pc.toNat + 1 + p := by omega
    rw [memRead_eq_ok_iff, haddr, ← List.getElem?_drop]
    exact ⟨by omega, hraw⟩
  · have hshort : (s.tape.drop (s.pc.toNat + 1)).length = p := by omega
    have hmissing := takeParams_of_length_lt (ms := ms) (cells := s.tape.drop (s.pc.toNat + 1)) 0 (by omega)
    rw [hshort, Nat.zero_add] at hmissing
    exact step_of_fetch_error he (fetch_of_takeParams_error hw hd hmissing)

end Sys2Proof.Machine

/-! ## The default operations and their pseudocode -/
namespace Sys2Proof.Machine

/-! A behaviour that reads an operand first: the fault of the read, or the rest with the operand in its variable. -/

theorem runCmd_value_seq_error {s : State} {l : Latched} {p : Nat} {e : Fault} (h : s.value (paramAt l.params p) = .error e)
    (n x : Nat) (c : Cmd) (env : Env) : runCmd n l (.seq (.value x p) c) env s = some (.raised e s) := by
  simp [runCmd, h]

theorem runCmd_value_seq_ok {s : State} {l : Latched} {p : Nat} {v : Int} (h : s.value (paramAt l.params p) = .ok v)
    (n x : Nat) (c : Cmd) (env : Env) : runCmd n l (.seq (.value x p) c) env s = runCmd n l c ((x, v) :: env) s := by
  simp [runCmd, h]

theorem runCmd_two_values_seq {s : State} {l : Latched} {va vb : Int} (ha : s.value (paramAt l.params 0) = .ok va)
    (hb : s.value (paramAt l.params 1) = .ok vb) (n : Nat) (c : Cmd) :
    runCmd n l (.seq (.value 0 0) (.seq (.value 1 1) c)) [] s = runCmd n l c [(1, vb), (0, va)] s := by
  rw [runCmd_value_seq_ok ha, runCmd_value_seq_ok hb]

/-- The pseudocode of ADD, MUL, LT and EQ (41_arithmetic.md R77, R78, 44_compare.md R86, R87) is the shape they share, where the
expression it writes gives the function of the two operands. -/
theorem execHosted_threeOperandBody {e : Expr} {f : Int → Int → Int} (hwf : e.wf 3 = true)
    (he : ∀ l va vb, evalExpr l [(1, vb), (0, va)] e = f va vb) (word : Int) (a b c : Param) (s : State) :
    execHosted ⟨3, threeOperandBody e, .advance⟩ word [a, b, c] s = threeOperand f a b c s := by
  have hop : HostOp.wf ⟨3, threeOperandBody e, .advance⟩ = true := by
    simp [HostOp.wf, threeOperandBody, Cmd.wf, SignalExpr.wf, hwf]
  have run {p : Progress} := execHosted_of_runCmd hop (w := word) (ps := [a, b, c]) (s := s) (p := p) 0
  cases ha : s.value a with
  | error err =>
    rw [run (runCmd_value_seq_error ha ..)]
    simp [threeOperand, ha, finishHosted]
  | ok va =>
    cases hb : s.value b with
    | error err =>
      rw [run ((runCmd_value_seq_ok ha ..).trans (runCmd_value_seq_error hb ..))]
      simp [threeOperand, ha, hb, finishHosted]
    | ok vb =>
      cases hw : s.writeParam 2 c (f va vb) with
      | error err =>
        rw [run (p := .raised err s) ((runCmd_two_values_seq ha hb ..).trans (by simp [runCmd, paramAt, he, hw])),
          threeOperand_of_write_error ha hb hw]
        rfl
      | ok t =>
        rw [run (p := .going [(1, vb), (0, va)] t) ((runCmd_two_values_seq ha hb ..).trans (by simp [runCmd, paramAt, he, hw]))]
        simp [threeOperand, ha, hb, hw, finishHosted, evalSignal]

/-- The pseudocode of JT and JF (43_jumps.md R83, R84) is the shape they share, where its last line jumps exactly when the jump
is taken. -/
theorem execHosted_conditionalJump {c : Cmd} {taken : Int → Bool} (hwf : c.wf 2 = true)
    (hc : ∀ l va vb s, runCmd 0 l c [(1, vb), (0, va)] s =
      if taken va then some (.done (.jump vb) s) else some (.going [(1, vb), (0, va)] s))
    (word : Int) (a b : Param) (s : State) :
    execHosted ⟨2, .seq (.value 0 0) (.seq (.value 1 1) c), .advance⟩ word [a, b] s = conditionalJump taken a b s := by
  have hop : HostOp.wf ⟨2, .seq (.value 0 0) (.seq (.value 1 1) c), .advance⟩ = true := by
    simp [HostOp.wf, Cmd.wf, SignalExpr.wf, hwf]
  have run {p : Progress} := execHosted_of_runCmd hop (w := word) (ps := [a, b]) (s := s) (p := p) 0
  cases ha : s.value a with
  | error err =>
    rw [run (runCmd_value_seq_error ha ..)]
    simp [conditionalJump, ha, finishHosted]
  | ok va =>
    cases hb : s.value b with
    | error err =>
      rw [run ((runCmd_value_seq_ok ha ..).trans (runCmd_value_seq_error hb ..))]
      simp [conditionalJump, ha, hb, finishHosted]
    | ok vb =>
      have hlast := (runCmd_two_values_seq (l := ⟨s.pc, word, [a, b]⟩) ha hb 0 c).trans (hc ..)
      cases ht : taken va with
      | true =>
        rw [ht, if_pos rfl] at hlast
        rw [run hlast]
        simp [conditionalJump, ha, hb, ht, finishHosted]
      | false =>
        rw [ht, if_neg Bool.false_ne_true] at hlast
        rw [run hlast]
        simp [conditionalJump, ha, hb, ht, finishHosted, evalSignal]

/-- The pseudocode of IN (42_io.md R80). -/
theorem execHosted_input (word : Int) (a : Param) (s : State) :
    execHosted (pseudocode .input) word [a] s = execInput a s := by
  have run {p : Progress} := execHosted_of_runCmd (pseudocode_wf .input) (w := word) (ps := [a]) (s := s) (p := p) 0
  cases hi : s.takeInput with
  | none =>
    rw [run (p := .held) (by simp [pseudocode, runCmd, hi])]
    simp [execInput, hi, finishHosted]
  | some r =>
    obtain ⟨v, u⟩ := r
    cases hw : u.writeParam 0 a v with
    | error err =>
      rw [run (p := .raised err u) (by simp [pseudocode, runCmd, hi, paramAt, evalExpr, envGet, hw])]
      simp [execInput, hi, hw, finishHosted]
    | ok t =>
      rw [run (p := .going [(0, v)] t) (by simp [pseudocode, runCmd, hi, paramAt, evalExpr, envGet, hw])]
      simp [execInput, hi, hw, finishHosted, pseudocode, evalSignal]

/-- The pseudocode of OUT (42_io.md R81). -/
theorem execHosted_output (word : Int) (a : Param) (s : State) :
    execHosted (pseudocode .output) word [a] s = execOutput a s := by
  have run {p : Progress} := execHosted_of_runCmd (pseudocode_wf .output) (w := word) (ps := [a]) (s := s) (p := p) 0
  cases ha : s.value a with
  | error err =>
    rw [run (runCmd_value_seq_error ha ..)]
    exact (execOutput_of_value_error ha).symm
  | ok va =>
    rw [run (runCmd_value_seq_ok ha ..)]
    simp [execOutput, ha, finishHosted, pseudocode, evalSignal, evalExpr, envGet]

/-- Settles O46, by one lemma for each shape of pseudocode. -/
theorem defaultOperationsRunTheirPseudocode : Obligations.DefaultOperationsRunTheirPseudocode := by
  intro i word s
  cases i with
  | add a b c => exact execHosted_threeOperandBody rfl (fun _ _ _ => rfl) word a b c s
  | mul a b c => exact execHosted_threeOperandBody rfl (fun _ _ _ => rfl) word a b c s
  | input a => exact execHosted_input word a s
  | output a => exact execHosted_output word a s
  | jt a b => exact execHosted_conditionalJump rfl (fun _ _ _ _ => rfl) word a b s
  | jf a b =>
    refine execHosted_conditionalJump rfl (fun l va vb s => ?_) word a b s
    show (if isTrueCell va then _ else _) = if !isTrueCell va then _ else _
    cases isTrueCell va <;> rfl
  | lt a b c => exact execHosted_threeOperandBody rfl (fun _ _ _ => rfl) word a b c s
  | eq a b c => exact execHosted_threeOperandBody rfl (fun _ _ _ => rfl) word a b c s
  | hlt => exact execHosted_of_runCmd (pseudocode_wf .hlt) 0 rfl

end Sys2Proof.Machine

/-! ## The run loop -/
namespace Sys2Proof.Machine

/-- A run that has returned takes no step, however long it is watched. -/
theorem stepsOfRun_of_hasReturned {s : State} (h : s.hasReturned = true) (n : Nat) : stepsOfRun n s = .next s := by
  cases n with
  | zero => rfl
  | succ n => simp [stepsOfRun, h]

/-- Watching the run loop one step longer is taking one more step where it has not returned (40_execution_cycle.md R73). -/
theorem stepsOfRun_succ_of_next {n : Nat} {s t : State} (h : stepsOfRun n s = .next t) :
    stepsOfRun (n + 1) s = if t.hasReturned then .next t else step t := by
  induction n generalizing s with
  | zero =>
    obtain rfl : s = t := Host.Outcome.next.inj h
    simp only [stepsOfRun]
    cases step s <;> rfl
  | succ n ih =>
    cases hr : s.hasReturned with
    | true =>
      rw [stepsOfRun_of_hasReturned hr] at h ⊢
      obtain rfl : s = t := Host.Outcome.next.inj h
      simp [hr]
    | false =>
      cases hs : step s with
      | fault f => simp [stepsOfRun, hr, hs] at h
      | refused r => simp [stepsOfRun, hr, hs] at h
      | next u =>
        have hunfold : ∀ m, stepsOfRun (m + 1) s = stepsOfRun m u := fun m => by simp [stepsOfRun, hr, hs]
        rw [hunfold] at h ⊢
        exact ih h

/-- Settles O57: the loop is its watched part and one more step, and a run that has returned takes none. -/
theorem runIsTheLoopOfSteps : Obligations.RunIsTheLoopOfSteps := by
  intro s t n h
  refine ⟨stepsOfRun_succ_of_next h, fun hr m => ?_⟩
  induction m with
  | zero => exact h
  | succ m ih => exact (stepsOfRun_succ_of_next ih).trans (if_pos hr)

theorem hasReturned_iff (s : State) :
    s.hasReturned = true ↔ s.runState = .halted ∨ s.runState = .suspended ∨ s.fault ≠ none := by
  simp [State.hasReturned, Option.isSome_iff_ne_none, or_assoc]

theorem runEnter_of_halted {s : State} (hf : s.fault = none) (h : s.runState = .halted) : s.runEnter = s := by
  simp [State.runEnter, hf, h]

theorem runEnter_of_waiting {s : State} (hf : s.fault = none) (h : s.runState = .uninitialized ∨ s.runState = .suspended) :
    s.runEnter = { s with runState := .running } := by
  obtain h | h := h <;> simp [State.runEnter, hf, h]

/-- Settles O56: `run` enters as its execution state and latch say, and then loops only until it has returned. -/
theorem runEntersAndReturnsAsListed : Obligations.RunEntersAndReturnsAsListed := fun s =>
  ⟨runEnter_of_fault, runEnter_of_halted, runEnter_of_waiting, hasReturned_iff s, fun n h => stepsOfRun_of_hasReturned h n⟩

end Sys2Proof.Machine

/-! PROOFS of the statements of 41_arithmetic.md. -/

/-! ## The encoding that the three-operand instructions share -/
namespace Sys2Proof

/-- The canonical word of an instruction with three parameters, one decimal digit for each mode (30_encoding.md R43). -/
theorem word_of_three_params {i : Instr} {a b c : Param} (h : i.params = [a, b, c]) :
    i.word = i.op.opcode + 100 * a.mode.digit + 1000 * b.mode.digit + 10000 * c.mode.digit := by
  simp only [Instr.word, h, modeDigits]
  omega

/-- The canonical word and the three raw parameters after it decode to the instruction. -/
theorem decodeCells_of_three_params {i : Instr} {a b c : Param} (h : i.params = [a, b, c]) (rest : List Int) :
    decodeCells defaultTable
      (((i.op.opcode + 100 * a.mode.digit + 1000 * b.mode.digit + 10000 * c.mode.digit : Nat) : Int)
        :: a.raw :: b.raw :: c.raw :: rest) = .ok (.instr i, rest) := by
  have hcells : encode i ++ rest = (i.word : Int) :: a.raw :: b.raw :: c.raw :: rest := by simp [encode, h]
  rw [← word_of_three_params h, ← hcells]
  exact decodeOfEncodeIsTheInstruction i rest

end Sys2Proof

/-! ## The exceptions and the result that the three-operand instructions share -/
namespace Sys2Proof.Machine

section
variable {f : Int → Int → Int} {a b c : Param} {s : State} {va vb : Int}

/-- First exception of 41_arithmetic.md R77: the first operand lies outside the tape. -/
theorem threeOperand_first_outOfBounds (hm : a.mode = .position) (hout : ¬ s.InBounds a.raw) :
    threeOperand f a b c s = .next (s.raise (.outOfBounds a.raw .read)) := by
  simp [threeOperand, value_outOfBounds hm hout]

/-- Second exception of 41_arithmetic.md R77: the second operand lies outside the tape. -/
theorem threeOperand_second_outOfBounds (ha : s.value a = .ok va) (hm : b.mode = .position) (hout : ¬ s.InBounds b.raw) :
    threeOperand f a b c s = .next (s.raise (.outOfBounds b.raw .read)) := by
  simp [threeOperand, ha, value_outOfBounds hm hout]

/-- Third exception of 41_arithmetic.md R77: the target is immediate. -/
theorem threeOperand_target_immediate (ha : s.value a = .ok va) (hb : s.value b = .ok vb) (hm : c.mode = .immediate) :
    threeOperand f a b c s = .next (s.raise (.invalidWriteTarget 2 c.raw)) :=
  threeOperand_of_write_error ha hb (writeParam_immediate hm ..)

/-- Fourth exception of 41_arithmetic.md R77: the target lies outside the tape. -/
theorem threeOperand_target_outOfBounds (ha : s.value a = .ok va) (hb : s.value b = .ok vb) (hm : c.mode = .position)
    (hout : ¬ s.InBounds c.raw) : threeOperand f a b c s = .next (s.raise (.outOfBounds c.raw .write)) :=
  threeOperand_of_write_error ha hb ((writeParam_position hm ..).trans (memWrite_outOfBounds hout _))

/-- Past the four exceptions the result stands in the target cell and the pc is past the instruction's four cells. -/
theorem threeOperand_completes (ha : s.value a = .ok va) (hb : s.value b = .ok vb) (hm : c.mode = .position)
    (hin : s.InBounds c.raw) :
    threeOperand f a b c s = .next { s with tape := s.tape.set c.raw.toNat (f va vb), pc := s.pc + 4 } := by
  have hw : s.writeParam 2 c (f va vb) = .ok { s with tape := s.tape.set c.raw.toNat (f va vb) } :=
    (writeParam_position hm ..).trans (memWrite_inBounds hin _)
  have hpc : s.pc + 1 + (3 : Nat) = s.pc + 4 := by omega
  simp only [threeOperand, ha, hb, hw, State.applySignal, hpc]

end

/-- Settles O23, by one lemma for the encoding, one for each exception and one for the result. -/
theorem addDoesAllItsRuleSays : Obligations.AddDoesAllItsRuleSays := fun a b c _ =>
  ⟨decodeCells_of_three_params (i := .add a b c) rfl, fun _ => step_of_fetch_error, threeOperand_first_outOfBounds, fun _ ha =>
    ⟨threeOperand_second_outOfBounds ha, fun _ hb =>
      ⟨threeOperand_target_immediate ha hb, threeOperand_target_outOfBounds ha hb, threeOperand_completes ha hb⟩⟩⟩

/-- Settles O24, by the lemmas of ADD: the product is the one difference after the encoding. -/
theorem mulDoesAllItsRuleSays : Obligations.MulDoesAllItsRuleSays := fun a b c _ =>
  ⟨decodeCells_of_three_params (i := .mul a b c) rfl, threeOperand_first_outOfBounds, fun _ ha =>
    ⟨threeOperand_second_outOfBounds ha, fun _ hb =>
      ⟨threeOperand_target_immediate ha hb, threeOperand_target_outOfBounds ha hb, threeOperand_completes ha hb⟩⟩⟩

/-- Settles O21: a target in position mode and in the tape leaves ADD and MUL no exception once both operands resolve. -/
theorem addAndMulComplete : Obligations.AddAndMulComplete := by
  intro a b c s va vb ha hb hm h0 hN
  have hin : s.InBounds c.raw := ⟨h0, hN⟩
  exact ⟨threeOperand_completes ha hb hm hin, threeOperand_completes ha hb hm hin⟩

end Sys2Proof.Machine

/-! PROOFS of the statements of 42_io.md. -/

/-! ## The encoding of the instructions with one parameter -/
namespace Sys2Proof

/-- The canonical word of an instruction with one parameter has one mode digit (30_encoding.md R43). -/
theorem word_of_one_param {i : Instr} {a : Param} (h : i.params = [a]) : i.word = i.op.opcode + 100 * a.mode.digit := by
  simp [Instr.word, h, modeDigits]

/-- The canonical word and the raw parameter after it decode to the instruction. -/
theorem decodeCells_of_one_param {i : Instr} {a : Param} (h : i.params = [a]) (rest : List Int) :
    decodeCells defaultTable (((i.op.opcode + 100 * a.mode.digit : Nat) : Int) :: a.raw :: rest) = .ok (.instr i, rest) := by
  have hcells : encode i ++ rest = (i.word : Int) :: a.raw :: rest := by simp [encode, h]
  rw [← word_of_one_param h, ← hcells]
  exact decodeOfEncodeIsTheInstruction i rest

end Sys2Proof

/-! ## The input channel, the output channel, and the instructions that call one -/
namespace Sys2Proof.Machine

/-- Advancing past an instruction of one parameter adds 2 to the pc (40_execution_cycle.md R68). -/
theorem advance_past_one_param (s : State) : s.applySignal 1 .advance = { s with pc := s.pc + 2 } := by
  have hpc : s.pc + 1 + (1 : Nat) = s.pc + 2 := by omega
  simp only [State.applySignal, hpc]

section
variable {a : Param} {s t : State} {v : Int} {q : List Int}

/-- On an empty queue IN is held (42_io.md R80, decision D14). -/
theorem execInput_held (hq : s.inQ = []) : execInput a s = .next s := by
  simp [execInput, (takeInput_eq_none_iff s).2 hq]

/-- An IN whose write faults takes the fault from the state that has lost the head of the queue (decision D8). -/
theorem execInput_of_write_error {e : Fault} (hq : s.inQ = v :: q)
    (hw : ({ s with inQ := q } : State).writeParam 0 a v = .error e) :
    execInput a s = .next (({ s with inQ := q } : State).raise e) := by
  simp [execInput, State.takeInput, hq, hw]

/-- First exception of 42_io.md R80: the target is immediate. -/
theorem execInput_target_immediate (hq : s.inQ = v :: q) (hm : a.mode = .immediate) :
    execInput a s = .next (({ s with inQ := q } : State).raise (.invalidWriteTarget 0 a.raw)) :=
  execInput_of_write_error hq (writeParam_immediate hm ..)

/-- Second exception of 42_io.md R80: the target lies outside the tape. -/
theorem execInput_target_outOfBounds (hq : s.inQ = v :: q) (hm : a.mode = .position) (hout : ¬ s.InBounds a.raw) :
    execInput a s = .next (({ s with inQ := q } : State).raise (.outOfBounds a.raw .write)) :=
  execInput_of_write_error hq ((writeParam_position hm ..).trans (memWrite_outOfBounds (s := { s with inQ := q }) hout _))

/-- Past the exceptions the head of the queue stands in the target cell and the pc is past the instruction's two cells. -/
theorem execInput_completes (hq : s.inQ = v :: q) (hm : a.mode = .position) (hin : s.InBounds a.raw) :
    execInput a s = .next { s with tape := s.tape.set a.raw.toNat v, inQ := q, pc := s.pc + 2 } := by
  have hw : ({ s with inQ := q } : State).writeParam 0 a v =
      .ok { s with inQ := q, tape := s.tape.set a.raw.toNat v } :=
    (writeParam_position hm ..).trans (memWrite_inBounds (s := { s with inQ := q }) hin _)
  simp only [execInput, State.takeInput, hq, hw, advance_past_one_param]

/-- IN emits nothing and takes exactly the head of the queue, where there is one, whether or not its write faults
(42_io.md R82). -/
theorem execInput_channels (h : execInput a s = .next t) : t.outLog = s.outLog ∧ t.inQ = s.inQ.tail := by
  obtain ⟨hq, rfl⟩ | ⟨v, q, hq, ⟨e, -, rfl⟩ | ⟨u, hw, rfl⟩⟩ := execInput_cases h
  · simp [hq]
  · simp [hq]
  · obtain ⟨-, -, rfl⟩ := writeParam_eq_ok hw
    simp [hq]

/-- IN changes no read but that of the address its parameter names. -/
theorem execInput_memRead_other {addr : Int} (h : execInput a s = .next t) (hne : storeAddress a ≠ some addr) :
    t.memRead addr = s.memRead addr := by
  obtain ⟨-, rfl⟩ | ⟨v, q, -, ⟨e, -, rfl⟩ | ⟨u, hw, rfl⟩⟩ := execInput_cases h
  · rfl
  · exact memRead_congr rfl addr
  · calc (u.applySignal 1 .advance).memRead addr
      _ = u.memRead addr := memRead_congr rfl addr
      _ = ({ s with inQ := q } : State).memRead addr := memRead_writeParam_other hw hne
      _ = s.memRead addr := memRead_congr rfl addr

/-- IN leaves the execution state, the table and the length of the tape, and does not both latch a fault and move the pc. -/
theorem execInput_keeps (h : execInput a s = .next t) :
    t.runState = s.runState ∧ t.optable = s.optable ∧ t.tape.length = s.tape.length ∧ (t.fault = s.fault ∨ t.pc = s.pc) := by
  obtain ⟨-, rfl⟩ | ⟨v, q, -, ⟨e, -, rfl⟩ | ⟨u, hw, rfl⟩⟩ := execInput_cases h
  · exact ⟨rfl, rfl, rfl, .inl rfl⟩
  · exact ⟨rfl, rfl, rfl, .inr rfl⟩
  · have hf := frame_writeParam hw
    exact ⟨hf.runState, hf.optable, hf.length, .inl hf.fault⟩

/-- The one exception of 42_io.md R81: the operand lies outside the tape. -/
theorem execOutput_outOfBounds (hm : a.mode = .position) (hout : ¬ s.InBounds a.raw) :
    execOutput a s = .next (s.raise (.outOfBounds a.raw .read)) :=
  execOutput_of_value_error (value_outOfBounds hm hout)

/-- An OUT whose operand resolves emits it, and the pc is past the instruction's two cells. -/
theorem execOutput_completes (ha : s.value a = .ok v) :
    execOutput a s = .next { s with outLog := s.outLog ++ [v], pc := s.pc + 2 } := by
  simp only [execOutput, ha, advance_past_one_param, State.emit]

/-- OUT stores nothing and takes no input, whether or not its read faults. -/
theorem execOutput_keeps (h : execOutput a s = .next t) : t.tape = s.tape ∧ t.inQ = s.inQ := by
  obtain ⟨e, -, rfl⟩ | ⟨va, -, rfl⟩ := execOutput_cases h <;> exact ⟨rfl, rfl⟩

/-- A conditional jump calls neither channel. -/
theorem conditionalJump_channels {taken : Int → Bool} {b : Param} (h : conditionalJump taken a b s = .next t) :
    t.inQ = s.inQ ∧ t.outLog = s.outLog := by
  obtain ⟨e, -, rfl⟩ | ⟨va, e, -, -, rfl⟩ | ⟨va, vb, -, -, rfl⟩ := conditionalJump_cases h
  · exact ⟨rfl, rfl⟩
  · exact ⟨rfl, rfl⟩
  · exact ⟨State.applySignal_inQ .., State.applySignal_outLog ..⟩

/-- A three-operand instruction calls neither channel. -/
theorem threeOperand_channels {f : Int → Int → Int} {b c : Param} (h : threeOperand f a b c s = .next t) :
    t.inQ = s.inQ ∧ t.outLog = s.outLog := by
  obtain ⟨e, rfl⟩ | ⟨v, u, hw, rfl⟩ := threeOperand_raises_or_stores h
  · exact ⟨rfl, rfl⟩
  · obtain ⟨-, -, rfl⟩ := writeParam_eq_ok hw
    exact ⟨rfl, rfl⟩

/-- Every default instruction but IN and OUT calls neither channel (42_io.md R82). -/
theorem exec_channels_of_not_io {i : Instr} (hin : i.op ≠ .input) (hout : i.op ≠ .output) (h : exec i s = .next t) :
    t.inQ = s.inQ ∧ t.outLog = s.outLog := by
  cases i with
  | input a => exact absurd rfl hin
  | output a => exact absurd rfl hout
  | add a b c => exact threeOperand_channels h
  | mul a b c => exact threeOperand_channels h
  | lt a b c => exact threeOperand_channels h
  | eq a b c => exact threeOperand_channels h
  | jt a b => exact conditionalJump_channels h
  | jf a b => exact conditionalJump_channels h
  | hlt =>
    obtain rfl : s.applySignal 0 .halt = t := Host.Outcome.next.inj h
    exact ⟨rfl, rfl⟩

end

/-- Settles O33: what IN keeps, what it does to the channels, and the reads it leaves; a queue that became its tail was empty
or has lost its head. -/
theorem inFrame : Obligations.InFrame := by
  intro a s t h
  obtain ⟨hrun, htable, hlen, hlatch⟩ := execInput_keeps h
  obtain ⟨hlog, htail⟩ := execInput_channels h
  have hqueue : t.inQ = s.inQ ∨ ∃ v, s.inQ = v :: t.inQ := by
    cases hq : s.inQ with
    | nil => exact .inl (by simp [htail, hq])
    | cons v q => exact .inr ⟨v, by simp [htail, hq]⟩
  exact ⟨hrun, hlog, htable, hlen, hqueue, hlatch, fun _ => execInput_memRead_other h⟩

/-- Settles O35, by one clause for IN, two for OUT and one for all other instructions. -/
theorem channelsAreCalledOncePerInstruction : Obligations.ChannelsAreCalledOncePerInstruction := by
  intro i s t h
  refine ⟨fun hop => ?_, ?_, fun hop => ?_, fun hin hout => exec_channels_of_not_io hin hout h⟩
  · cases i with
    | input a => exact execInput_channels h
    | _ => cases hop
  · rintro a va rfl ha
    obtain rfl := Host.Outcome.next.inj ((execOutput_completes ha).symm.trans h)
    rfl
  · cases i with
    | output a => exact (execOutput_keeps h).2
    | _ => cases hop

/-- Settles O29: a queued integer and a target in the tape leave IN no hold and no exception. -/
theorem inCompletes : Obligations.InCompletes := fun _ _ _ _ hq hm h0 hN => execInput_completes hq hm ⟨h0, hN⟩

/-- Settles O30, by the lemma of the hold and one for each exception. -/
theorem inWaitsAndTraps : Obligations.InWaitsAndTraps := fun _ _ =>
  ⟨execInput_held, fun _ _ hq => ⟨execInput_target_immediate hq, execInput_target_outOfBounds hq⟩⟩

/-- Settles O31: a resolved operand leaves OUT no exception. -/
theorem outCompletes : Obligations.OutCompletes := fun _ _ _ => execOutput_completes

/-- Settles O32, by one lemma for the encoding, one for the exception, one for the result and one for the tape. -/
theorem outDoesAllItsRuleSays : Obligations.OutDoesAllItsRuleSays := fun a _ =>
  ⟨decodeCells_of_one_param (i := .output a) rfl, execOutput_outOfBounds, fun _ => execOutput_completes,
    fun _ h => (execOutput_keeps h).1⟩

end Sys2Proof.Machine

/-! PROOFS of the statements of 43_jumps.md. -/

/-! ## The exceptions and the result that the two conditional jumps share, and the fetch out of the tape -/
namespace Sys2Proof.Machine

/-- JT takes its condition for true exactly when it is not 0 (43_jumps.md R83). -/
theorem isTrueCell_iff (v : Int) : isTrueCell v = true ↔ v ≠ 0 := decide_eq_true_iff

/-- JF is taken exactly when its condition is 0 (43_jumps.md R84). -/
theorem not_isTrueCell_iff (v : Int) : (!isTrueCell v) = true ↔ v = 0 := by
  rw [Bool.not_eq_true', ← Bool.not_eq_true, isTrueCell_iff, not_not]

section
variable {taken : Int → Bool} {a b : Param} {s : State} {va vb : Int}

/-- First exception of 43_jumps.md R83 and R84: the condition lies outside the tape. -/
theorem conditionalJump_condition_outOfBounds (hm : a.mode = .position) (hout : ¬ s.InBounds a.raw) :
    conditionalJump taken a b s = .next (s.raise (.outOfBounds a.raw .read)) := by
  simp [conditionalJump, value_outOfBounds hm hout]

/-- Second exception of 43_jumps.md R83 and R84: the cell of the target lies outside the tape, also where the jump would not be
taken (decision D6). -/
theorem conditionalJump_target_outOfBounds (ha : s.value a = .ok va) (hm : b.mode = .position) (hout : ¬ s.InBounds b.raw) :
    conditionalJump taken a b s = .next (s.raise (.outOfBounds b.raw .read)) := by
  simp [conditionalJump, ha, value_outOfBounds hm hout]

/-- A jump whose operands resolve goes to the second's value where it is taken, else past its three cells, and changes nothing
but the pc. -/
theorem conditionalJump_completes (ha : s.value a = .ok va) (hb : s.value b = .ok vb) :
    conditionalJump taken a b s = .next { s with pc := if taken va then vb else s.pc + 3 } := by
  cases ht : taken va with
  | true => simp [conditionalJump, ha, hb, ht, State.applySignal]
  | false =>
    have hpc : s.pc + 1 + (2 : Nat) = s.pc + 3 := by omega
    simp [conditionalJump, ha, hb, ht, State.applySignal, ← hpc]

/-- JT with both operands resolved is taken when the first is not 0 (43_jumps.md R83). -/
theorem execJt_completes (ha : s.value a = .ok va) (hb : s.value b = .ok vb) :
    execJt a b s = .next { s with pc := if va ≠ 0 then vb else s.pc + 3 } := by
  rw [execJt, conditionalJump_completes ha hb]
  simp only [isTrueCell_iff]

/-- JF with both operands resolved is taken when the first is 0 (43_jumps.md R84). -/
theorem execJf_completes (ha : s.value a = .ok va) (hb : s.value b = .ok vb) :
    execJf a b s = .next { s with pc := if va = 0 then vb else s.pc + 3 } := by
  rw [execJf, conditionalJump_completes ha hb]
  simp only [not_isTrueCell_iff]

/-- With the pc outside the tape there is no word to fetch (40_execution_cycle.md R61). -/
theorem fetch_of_pc_outOfBounds (h : ¬ s.InBounds s.pc) : s.fetch = .error (.outOfBounds s.pc .fetch) := by
  simp [State.fetch, (fetchCells_nil_iff s).2 h, decodeCells, faultOfDecode]

end

/-- Settles O36, by the result of each jump. -/
theorem jtAndJfComplete : Obligations.JtAndJfComplete := fun _ _ _ _ _ ha hb =>
  ⟨execJt_completes ha hb, execJf_completes ha hb⟩

/-- Settles O37: both exceptions hold of the shape the jumps share, whatever it is taken on. -/
theorem jumpsTrapOnUnreadableOperands : Obligations.JumpsTrapOnUnreadableOperands := by
  rintro i a b s (rfl | rfl) <;>
    exact ⟨conditionalJump_condition_outOfBounds, fun _ => conditionalJump_target_outOfBounds⟩

/-- Settles O38: a taken jump completes wherever its target lies, and the machine it leaves is enabled with nothing to fetch. -/
theorem jumpOutsideFaultsAtTheNextFetch : Obligations.JumpOutsideFaultsAtTheNextFetch := by
  intro a b s va vb he ha hb hout
  refine ⟨fun hv => ?_, fun hv => ?_, ?_⟩
  · rw [exec, execJt_completes ha hb, if_pos hv]
  · rw [exec, execJf_completes ha hb, if_pos hv]
  · have hfetch : ({ s with pc := vb } : State).fetch = .error (.outOfBounds vb .fetch) :=
      fetch_of_pc_outOfBounds (not_inBounds_of_outside (s := { s with pc := vb }) hout)
    exact step_of_fetch_error (s := { s with pc := vb }) he hfetch

end Sys2Proof.Machine

/-! PROOFS of the statements of 44_compare.md. -/

/-! ## The cell a comparison writes, and the result of LT and of EQ -/
namespace Sys2Proof.Machine

/-- The cell of a decided comparison is 1 where it holds and 0 where it does not (44_compare.md R86, R87). -/
theorem truthCell_decide (p : Prop) [Decidable p] : truthCell (decide p) = if p then 1 else 0 := by
  by_cases hp : p <;> simp [truthCell, hp]

/-- A comparison's cell is 1 exactly when the comparison holds. -/
theorem truthCell_decide_eq_one_iff (p : Prop) [Decidable p] : truthCell (decide p) = 1 ↔ p := by
  by_cases hp : p <;> simp [truthCell, hp]

/-- Of less, equal and greater one comparison writes 1 and the other two write 0 (44_compare.md R88). -/
theorem truthCell_trichotomy (x y : Int) :
    (truthCell (decide (x < y)) = 1 ∧ truthCell (decide (x = y)) = 0 ∧ truthCell (decide (y < x)) = 0) ∨
    (truthCell (decide (x < y)) = 0 ∧ truthCell (decide (x = y)) = 1 ∧ truthCell (decide (y < x)) = 0) ∨
    (truthCell (decide (x < y)) = 0 ∧ truthCell (decide (x = y)) = 0 ∧ truthCell (decide (y < x)) = 1) := by
  simp only [truthCell_decide]
  obtain hlt | rfl | hgt := lt_trichotomy x y
  · exact .inl ⟨if_pos hlt, if_neg hlt.ne, if_neg hlt.asymm⟩
  · exact .inr (.inl ⟨if_neg (lt_irrefl x), if_pos rfl, if_neg (lt_irrefl x)⟩)
  · exact .inr (.inr ⟨if_neg hgt.asymm, if_neg hgt.ne', if_pos hgt⟩)

section
variable {a b c : Param} {s : State} {va vb : Int}

/-- LT past its four exceptions leaves 1 where the first operand is less, else 0 (44_compare.md R86). -/
theorem execLt_completes (ha : s.value a = .ok va) (hb : s.value b = .ok vb) (hm : c.mode = .position)
    (hin : s.InBounds c.raw) :
    execLt a b c s = .next { s with tape := s.tape.set c.raw.toNat (if va < vb then 1 else 0), pc := s.pc + 4 } := by
  rw [execLt, threeOperand_completes ha hb hm hin, truthCell_decide]

/-- EQ past its four exceptions leaves 1 where the operands are equal, else 0 (44_compare.md R87). -/
theorem execEq_completes (ha : s.value a = .ok va) (hb : s.value b = .ok vb) (hm : c.mode = .position)
    (hin : s.InBounds c.raw) :
    execEq a b c s = .next { s with tape := s.tape.set c.raw.toNat (if va = vb then 1 else 0), pc := s.pc + 4 } := by
  rw [execEq, threeOperand_completes ha hb hm hin, truthCell_decide]

end

/-- Settles O25, by the encoding and the exceptions of every three-operand instruction, and the result of LT on each side. -/
theorem ltDoesAllItsRuleSays : Obligations.LtDoesAllItsRuleSays := fun a b c _ =>
  ⟨decodeCells_of_three_params (i := .lt a b c) rfl, threeOperand_first_outOfBounds, fun _ ha =>
    ⟨threeOperand_second_outOfBounds ha, fun _ hb =>
      ⟨threeOperand_target_immediate ha hb, threeOperand_target_outOfBounds ha hb,
        fun hm hin hlt => by rw [exec, execLt_completes ha hb hm hin, if_pos hlt],
        fun hm hin hge => by rw [exec, execLt_completes ha hb hm hin, if_neg hge]⟩⟩⟩

/-- Settles O26, by the encoding and the exceptions of every three-operand instruction, and the result of EQ on each side. -/
theorem eqDoesAllItsRuleSays : Obligations.EqDoesAllItsRuleSays := fun a b c _ =>
  ⟨decodeCells_of_three_params (i := .eq a b c) rfl, threeOperand_first_outOfBounds, fun _ ha =>
    ⟨threeOperand_second_outOfBounds ha, fun _ hb =>
      ⟨threeOperand_target_immediate ha hb, threeOperand_target_outOfBounds ha hb,
        fun hm hin heq => by rw [exec, execEq_completes ha hb hm hin, if_pos heq],
        fun hm hin hne => by rw [exec, execEq_completes ha hb hm hin, if_neg hne]⟩⟩⟩

/-- Settles O28: the three cells are those of the three comparisons, and the order of the integers is total. -/
theorem exactlyOneComparisonHolds : Obligations.ExactlyOneComparisonHolds := by
  intro a b c s va vb ha hb hm hin
  refine ⟨truthCell (decide (va < vb)), truthCell (decide (va = vb)), truthCell (decide (vb < va)), ?_, ?_, ?_,
    truthCell_decide_eq_one_iff _, truthCell_decide_eq_one_iff _, truthCell_decide_eq_one_iff _, truthCell_trichotomy va vb⟩
  · exact threeOperand_completes ha hb hm hin
  · exact threeOperand_completes ha hb hm hin
  · exact threeOperand_completes hb ha hm hin

/-- Settles O22: a target in position mode and in the tape leaves LT and EQ no exception once both operands resolve. -/
theorem ltAndEqComplete : Obligations.LtAndEqComplete := by
  intro a b c s va vb ha hb hm h0 hN
  have hin : s.InBounds c.raw := ⟨h0, hN⟩
  exact ⟨execLt_completes ha hb hm hin, execEq_completes ha hb hm hin⟩

end Sys2Proof.Machine

/-! PROOFS of the statements of 45_halt.md. -/

/-! ## The word of HLT, and what a halted machine does -/
namespace Sys2Proof.Machine

/-- A word whose two low digits are 99 is fetched as HLT: no digit of it is a mode, and no cell after it is needed
(30_encoding.md R53, 45_halt.md R89). -/
theorem fetch_of_hlt_word {s : State} {w : Nat} (ht : s.optable = defaultTable) (hw : s.memRead s.pc = .ok (w : Int))
    (h99 : w % 100 = 99) : s.fetch = .ok (.instr .hlt) := by
  apply fetch_of_decodeCells (rest := s.tape.drop (s.pc.toNat + 1))
  rw [ht, fetchCells_of_memRead hw]
  exact (decodedCellsCarryTheInstruction _ _ .hlt).2 ⟨w, rfl, h99, fun p a ha => by cases ha⟩

/-- No step is enabled in a halted machine (40_execution_cycle.md R59). -/
theorem enabled_of_halted {s : State} (h : s.runState = .halted) : s.enabled = false := by
  simp [State.enabled, h]

/-- A halted machine enters no run, faulted or not (40_execution_cycle.md R73). -/
theorem runEnter_eq_self_of_halted {s : State} (h : s.runState = .halted) : s.runEnter = s := by
  by_cases hf : s.fault = none
  · exact runEnter_of_halted hf h
  · exact runEnter_of_fault hf

/-- A call of `run` takes no step where its entry leaves the machine as it is and the machine has returned. -/
theorem runFor_of_hasReturned {s : State} (he : s.runEnter = s) (h : s.hasReturned = true) (n : Nat) :
    runFor n s = .next s := by
  rw [runFor, he, stepsOfRun_of_hasReturned h]

/-- A program has completed exactly when its machine halted without a fault (70_reset_and_hazards.md R130). -/
theorem completed_iff (s : State) : s.completed = true ↔ s.runState = .halted ∧ s.fault = none := by
  simp [State.completed, Option.isNone_iff_eq_none]

/-- Settles O40: a halted machine is not enabled, enters no run and has returned from any; a supply of input reaches the queue
alone. -/
theorem haltedIsTerminal : Obligations.HaltedIsTerminal := by
  intro s h
  have henter : s.runEnter = s := runEnter_eq_self_of_halted h
  have hreturned : s.hasReturned = true := (hasReturned_iff s).2 (.inl h)
  refine ⟨step_of_not_enabled (enabled_of_halted h), henter, runFor_of_hasReturned henter hreturned, fun vs => ⟨h, rfl⟩, ?_⟩
  rw [completed_iff, and_iff_right h]

/-- Settles O39: an enabled step on a word with low digits 99 fetches HLT, which does nothing but halt. -/
theorem hltCompletes : Obligations.HltCompletes :=
  ⟨fun _ => rfl, fun _ _ he ht hw h99 => step_of_fetch_instr he (fetch_of_hlt_word ht hw h99)⟩

end Sys2Proof.Machine

/-! PROOFS of the statements of 46_custom_operations.md. -/

/-! ## SETC, NOP0 and INS -/
namespace Sys2Proof.Machine

/-- A table that binds opcode 3 to `SETC(k)` decodes IN's canonical word and the cell after it to `SETC(k)` and its parameter,
whatever the mode (46_custom_operations.md R95). -/
theorem decodeCells_setc (k : Int) (a : Param) (rest : List Int) :
    decodeCells (overrideOp defaultTable 3 (.hosted (setc k))) (((3 + 100 * a.mode.digit : Nat) : Int) :: a.raw :: rest) =
      .ok (.hosted (setc k) ((3 + 100 * a.mode.digit : Nat) : Int) [a], rest) := by
  have hword : decodeWord (overrideOp defaultTable 3 (.hosted (setc k))) ((3 + 100 * a.mode.digit : Nat) : Int) =
      .ok (.hosted (setc k), [a.mode]) := by
    cases a.mode <;> rfl
  exact decodeCells_eq_ok_iff.2 ⟨_, _, [a], rfl, hword, rfl⟩

section
variable {k w : Int} {a : Param} {s t : State}

/-- `SETC(k)` raises the fault of its one write. -/
theorem execHosted_setc_of_write_error {e : Fault} (h : s.writeParam 0 a k = .error e) :
    execHosted (setc k) w [a] s = .next (s.raise e) :=
  execHosted_of_runCmd (p := .raised e s) (setc_wf k) 0 (by simp [setc, runCmd, paramAt, evalExpr, h])

/-- `SETC(k)` advances past its parameter once the constant is written. -/
theorem execHosted_setc_of_write_ok (h : s.writeParam 0 a k = .ok t) :
    execHosted (setc k) w [a] s = .next { t with pc := t.pc + 2 } := by
  rw [execHosted_of_runCmd (p := .going [] t) (setc_wf k) 0 (by simp [setc, runCmd, paramAt, evalExpr, h])]
  exact congrArg _ (advance_past_one_param t)

/-- `NOP0` has no effect but its advance (46_custom_operations.md R96). -/
theorem execHosted_nop0 : execHosted nop0 w [] s = .next { s with pc := s.pc + 1 } := by
  rw [execHosted_of_runCmd (p := .going [] s) nop0_wf 0 rfl]
  simp [finishHosted, nop0, evalSignal, State.applySignal]

/-- On an empty queue `INS` suspends before any effect (46_custom_operations.md R97). -/
theorem execHosted_ins_suspends (hq : s.inQ = []) : execHosted ins w [a] s = .next { s with runState := .suspended } :=
  execHosted_of_runCmd (p := .done .suspend s) ins_wf 0
    (by simp [ins, runCmd, State.inputReady, hq, truthCell, evalExpr, envGet, isTrueCell, evalSignal])

/-- With input ready `INS` writes the head of the queue as IN does (46_custom_operations.md R97). -/
theorem execHosted_ins_reads (hq : s.inQ ≠ []) : execHosted ins w [a] s = execInput a s := by
  obtain ⟨v, q, hvq⟩ := List.exists_cons_of_ne_nil hq
  have hrun : runCmd 0 ⟨s.pc, w, [a]⟩ ins.body [] s =
      runCmd 0 ⟨s.pc, w, [a]⟩ (.writeParam 0 (.var 1)) [(1, v), (0, 1)] { s with inQ := q } := by
    simp [ins, runCmd, State.inputReady, State.takeInput, hvq, truthCell, evalExpr, envGet, isTrueCell]
  cases hw : ({ s with inQ := q } : State).writeParam 0 a v with
  | error e =>
    rw [execInput_of_write_error hvq hw]
    exact execHosted_of_runCmd (p := .raised e { s with inQ := q }) ins_wf 0
      (hrun.trans (by simp [runCmd, paramAt, evalExpr, envGet, hw]))
  | ok t =>
    rw [execHosted_of_runCmd (p := .going [(1, v), (0, 1)] t) ins_wf 0
      (hrun.trans (by simp [runCmd, paramAt, evalExpr, envGet, hw]))]
    simp [execInput, State.takeInput, hvq, hw, finishHosted, ins, evalSignal]

end

/-- Source Scenario 6 (46_custom_operations.md R95): the program emits the constant and halts with the queue it was given. -/
theorem scenario6_emits_the_constant (q : List Int) :
    ∃ u t, State.construct [(3, .hosted (setc 5))] [3, 0, 4, 0, 99] = .ok u ∧ runFor 3 (u.supplyInput q) = .next t ∧
      t.completed = true ∧ t.outLog = [5] ∧ t.inQ = q :=
  ⟨_, _, rfl, rfl, rfl, rfl, rfl⟩

/-- Settles O44: the outcome of the one write decides between the exceptions and the result. -/
theorem setcDoesAllItsRuleSays : Obligations.SetcDoesAllItsRuleSays := by
  intro k w a s
  refine ⟨decodeCells_setc k a, fun hm => ?_, fun hm hout => ?_, fun hm hin => ?_, scenario6_emits_the_constant⟩
  · exact execHosted_setc_of_write_error (writeParam_immediate hm ..)
  · exact execHosted_setc_of_write_error ((writeParam_position hm ..).trans (memWrite_outOfBounds hout k))
  · exact execHosted_setc_of_write_ok ((writeParam_position hm ..).trans (memWrite_inBounds hin k))

/-- Settles O45, by one lemma for NOP0 and one for INS on each kind of queue. -/
theorem nopAdvancesAndInsSuspendsOrReads : Obligations.NopAdvancesAndInsSuspendsOrReads := fun _ _ _ =>
  ⟨execHosted_nop0, execHosted_ins_suspends, execHosted_ins_reads⟩

end Sys2Proof.Machine

/-! ## Which behaviours terminate, and the steps of a table of terminating ones -/
namespace Sys2Proof.Machine

/-- A `whileDo` whose body makes the state smaller each time it goes on ends within any number of iterations above the size of
the state it starts in. -/
theorem iterateWhile_answers {test : Env → Bool} {f : Env → State → Option Progress} {size : State → Nat}
    (hf : ∀ env s, ∃ p, f env s = some p ∧ ∀ env' s', p = .going env' s' → size s' < size s) :
    ∀ n env s, size s < n → ∃ p, iterateWhile test f n env s = some p := by
  intro n
  induction n with
  | zero => exact fun _ _ h => absurd h (Nat.not_lt_zero _)
  | succ n ih =>
    intro env s hn
    unfold iterateWhile
    split
    · obtain ⟨p, hp, hlt⟩ := hf env s
      rw [hp]
      cases p with
      | going env' s' => exact ih env' s' (lt_of_lt_of_le (hlt env' s' rfl) (Nat.le_of_lt_succ hn))
      | done sig t => exact ⟨_, rfl⟩
      | raised e t => exact ⟨_, rfl⟩
      | held => exact ⟨_, rfl⟩
    · exact ⟨_, rfl⟩

/-- The body of `while InputReady() do Output(Input())`, with the next test of the loop at its end. -/
def drainBody : Cmd := .seq (.input 1) (.seq (.output (.var 1)) (.inputReady 0))

/-- The body is held on an empty queue, and else goes on with a shorter one. -/
theorem runCmd_drainBody (n : Nat) (l : Latched) (env : Env) (s : State) :
    ∃ p, runCmd n l drainBody env s = some p ∧ ∀ env' s', p = .going env' s' → s'.inQ.length < s.inQ.length := by
  cases hi : s.takeInput with
  | none => exact ⟨.held, by simp [drainBody, runCmd, hi], nofun⟩
  | some r =>
    obtain ⟨v, u⟩ := r
    obtain ⟨q, hq, hu⟩ := takeInput_eq_some hi
    refine ⟨.going ((0, truthCell (u.emit v).inputReady) :: (1, v) :: env) (u.emit v),
      by simp [drainBody, runCmd, hi, evalExpr, envGet], ?_⟩
    rintro env' s' ⟨⟩
    simp [hq, hu, State.emit]

/-- Reading the whole queue out terminates: each iteration takes one integer from it (46_custom_operations.md R91). -/
theorem terminates_drain : Terminates ⟨0, .seq (.inputReady 0) (.whileDo (.var 0) drainBody), .advance⟩ := by
  intro l s _
  obtain ⟨p, hp⟩ := iterateWhile_answers (test := fun env => isTrueCell (evalExpr l env (.var 0)))
    (size := fun s => s.inQ.length) (runCmd_drainBody (s.inQ.length + 1) l) (s.inQ.length + 1)
    [(0, truthCell s.inputReady)] s (Nat.lt_succ_self _)
  exact ⟨p, behave_eq_some_iff.2 ⟨s.inQ.length + 1, hp⟩⟩

/-- A terminating override keeps a table terminating. -/
theorem tableTerminates_overrideOp {t : OpTable} {o : Int} {op : Operation} (ht : TableTerminates t)
    (hop : ∀ h, op = .hosted h → Terminates h) : TableTerminates (overrideOp t o op) := by
  intro k h hl
  rw [lookupOp_overrideOp] at hl
  split at hl
  · exact hop h (Option.some.inj hl)
  · exact ht k h hl

/-- Terminating overrides, applied in order, keep a table terminating. -/
theorem tableTerminates_applyOverrides {ov : List (Int × Operation)} {t u : OpTable} (ht : TableTerminates t)
    (hov : ∀ o h, (o, Operation.hosted h) ∈ ov → Terminates h) (h : applyOverrides t ov = .ok u) : TableTerminates u := by
  induction ov generalizing t with
  | nil =>
    obtain rfl : t = u := Except.ok.inj h
    exact ht
  | cons e ov ih =>
    obtain ⟨o, op⟩ := e
    simp only [applyOverrides] at h
    split at h
    · refine ih (tableTerminates_overrideOp ht ?_) (fun o' h' hm => hov o' h' (List.mem_cons_of_mem _ hm)) h
      rintro h' rfl
      exact hov o h' List.mem_cons_self
    · cases h

/-- A default instruction answers a next state: it runs its pseudocode, which has no `whileDo`. -/
theorem exec_next (i : Instr) (s : State) : ∃ t, exec i s = .next t := by
  have hfree : (pseudocode i.op).body.whileFree = true := by cases i <;> rfl
  have hlen : i.params.length = (pseudocode i.op).arity := by cases i <;> rfl
  rw [← defaultOperationsRunTheirPseudocode i 0 s]
  exact execHosted_next (pseudocode_wf i.op) (terminates_of_whileFree hfree) 0 i.params hlen s

/-- Every step with an accepted table of terminating operations answers a next state (46_custom_operations.md R99). -/
theorem step_next {s : State} (hw : OpTable.wf s.optable = true) (ht : TableTerminates s.optable) : ∃ t, step s = .next t := by
  cases he : s.enabled with
  | false => exact ⟨s, step_of_not_enabled he⟩
  | true =>
    cases hf : s.fetch with
    | error f => exact ⟨s.raise f, step_of_fetch_error he hf⟩
    | ok d =>
      cases d with
      | instr i =>
        rw [step_of_fetch_instr he hf]
        exact exec_next i s
      | hosted h w ps =>
        obtain ⟨hl, hlen⟩ := fetch_hosted hf
        have hop : h.wf = true := lookupOp_wf (op := .hosted h) (tableWf_all hw) hl
        rw [step_of_fetch_hosted he hf]
        exact execHosted_next hop (ht _ h hl) w ps hlen s

/-- A step at a behaviour that never ends is refused by name (log entry 14). -/
theorem step_of_endless {s : State} {h : HostOp} {w : Int} {ps : List Param} (he : s.enabled = true) (hw : h.wf = true)
    (hf : s.fetch = .ok (.hosted h w ps)) (hb : behave ⟨s.pc, w, ps⟩ h.body s = none) :
    step s = .refused .endlessBehaviour := by
  rw [step_of_fetch_hosted he hf]
  simp [execHosted, hw, hb]

/-- Settles O50: a step runs a default instruction or one of the table's own operations, and both end. -/
theorem everyMachineAnswersEveryStep : Obligations.EveryMachineAnswersEveryStep :=
  ⟨fun _ => step_next, fun _ _ h hov => tableTerminates_applyOverrides defaultTable_terminates hov h,
    fun _ => terminates_of_whileFree, terminates_drain, fun _ _ _ _ => step_of_endless⟩

end Sys2Proof.Machine

/-! PROOFS of the statements of 60_exceptions.md. -/

/-! ## Why a word decodes to nothing, the first reason first -/
namespace Sys2Proof

/-- A negative word decodes to nothing, whatever the table (30_encoding.md R50). -/
theorem decodeWord_of_negative {t : OpTable} {w : Int} (h : w < 0) : decodeWord t w = .error (.negativeWord w) := if_pos h

/-- The digits below 2 are those of the two modes (30_encoding.md R46). -/
theorem exists_mode_of_lt_two {d : Nat} (h : d < 2) : ∃ m : Mode, d = m.digit := by
  obtain rfl | rfl : d = 0 ∨ d = 1 := by omega
  · exact ⟨.position, rfl⟩
  · exact ⟨.immediate, rfl⟩

/-- Past a position whose digit is a mode's, the mode check is that of the positions after it. -/
theorem decodeModes_succ_of_digit {w n p : Nat} {m : Mode} (h : digit w (p + 2) = m.digit) :
    decodeModes w (n + 1) p = (decodeModes w n (p + 1)).map (m :: ·) := by
  cases m <;> simp [decodeModes, h, Mode.digit]

/-- A position whose digit is no mode's ends the mode check (30_encoding.md R52). -/
theorem decodeModes_succ_of_bad_digit {w n p : Nat} (h : 2 ≤ digit w (p + 2)) :
    decodeModes w (n + 1) p = .error (.invalidMode p (digit w (p + 2))) := by
  unfold decodeModes
  split
  next h0 => omega
  next h1 => omega
  next => rfl

/-- The mode check fails at its lowest position with a bad digit, `q` positions after its first. -/
theorem decodeModes_of_lowest_bad_digit {w n p q : Nat} (hq : q < n) (hbad : 2 ≤ digit w (p + q + 2))
    (hgood : ∀ r, r < q → digit w (p + r + 2) < 2) :
    decodeModes w n p = .error (.invalidMode (p + q) (digit w (p + q + 2))) := by
  induction q generalizing n p with
  | zero =>
    obtain ⟨n, rfl⟩ := Nat.exists_eq_add_one_of_ne_zero (Nat.ne_of_gt hq)
    exact decodeModes_succ_of_bad_digit hbad
  | succ q ih =>
    obtain ⟨n, rfl⟩ := Nat.exists_eq_add_one_of_ne_zero (Nat.ne_zero_of_lt hq)
    have hshift : ∀ r, p + (r + 1) = p + 1 + r := by omega
    rw [hshift] at hbad ⊢
    obtain ⟨m, hm⟩ := exists_mode_of_lt_two (hgood 0 (Nat.succ_pos q))
    have hrest := ih (Nat.lt_of_succ_lt_succ hq) hbad fun r hr => hshift r ▸ hgood (r + 1) (Nat.succ_lt_succ hr)
    rw [decodeModes_succ_of_digit hm, hrest]
    rfl

/-- The mode check passes where the digit of each of its positions is a mode's. -/
theorem decodeModes_of_good_digits {w n p : Nat} (h : ∀ r, r < n → digit w (p + r + 2) < 2) :
    ∃ ms, decodeModes w n p = .ok ms := by
  induction n generalizing p with
  | zero => exact ⟨[], rfl⟩
  | succ n ih =>
    have hshift : ∀ r, p + (r + 1) = p + 1 + r := by omega
    obtain ⟨m, hm⟩ := exists_mode_of_lt_two (h 0 (Nat.succ_pos n))
    obtain ⟨ms, hms⟩ := ih fun r hr => hshift r ▸ h (r + 1) (Nat.succ_lt_succ hr)
    exact ⟨m :: ms, by rw [decodeModes_succ_of_digit hm, hms]; rfl⟩

section
variable {t : OpTable} {w : Nat} {op : Operation} (hop : lookupOp t (opcodeOf w) = some op)
include hop

/-- A word whose opcode is bound fails at its lowest used position with a bad mode digit (40_execution_cycle.md R64). -/
theorem decodeWord_of_lowest_bad_digit {p : Nat} (hp : p < op.arity) (hbad : 2 ≤ digit w (p + 2))
    (hgood : ∀ q, q < p → digit w (q + 2) < 2) : decodeWord t w = .error (.invalidMode p (digit w (p + 2))) := by
  have hmodes := decodeModes_of_lowest_bad_digit (w := w) (p := 0) hp (by simpa using hbad) (by simpa using hgood)
  rw [Nat.zero_add] at hmodes
  rw [decodeWord_of_bound hop, hmodes]
  rfl

/-- A word whose opcode is bound decodes where each used mode digit is a mode's. -/
theorem decodeWord_of_good_digits (hgood : ∀ q, q < op.arity → digit w (q + 2) < 2) :
    ∃ ms, decodeWord t w = .ok (op, ms) := by
  obtain ⟨ms, hms⟩ := decodeModes_of_good_digits (w := w) (p := 0) (by simpa using hgood)
  exact ⟨ms, by rw [decodeWord_of_bound hop, hms]; rfl⟩

end

end Sys2Proof

/-! ## The faults before execution -/
namespace Sys2Proof.Machine

/-- An enabled step on a word that does not decode raises the fault of its first failing check (60_exceptions.md R110). -/
theorem step_of_decodeWord_error {s : State} {w : Int} {e : DecodeError} (he : s.enabled = true)
    (hw : s.memRead s.pc = .ok w) (h : decodeWord s.optable w = .error e) :
    step s = .next (s.raise (faultOfDecode s.pc e)) :=
  step_of_fetch_error he (fetch_of_decodeWord_error hw h)

/-- Settles O17: each row of the table is the fault of the fetch where all rows above it pass. -/
theorem fetchFaultsComeInOrder : Obligations.FetchFaultsComeInOrder := by
  refine fun s he => ⟨fun hout => ?_, fun w hw hneg => ?_, fun w hw hnone => ?_, fun w op hw hop => ⟨?_, ?_⟩⟩
  · exact step_of_fetch_error he (fetch_of_pc_outOfBounds (not_inBounds_of_outside hout))
  · exact step_of_decodeWord_error he hw (decodeWord_of_negative hneg)
  · exact step_of_decodeWord_error he hw (decodeWord_of_unbound hnone)
  · intro p hp hbad hgood
    exact step_of_decodeWord_error he hw (decodeWord_of_lowest_bad_digit hop hp hbad hgood)
  · intro hgood p hp hend
    obtain ⟨ms, hms⟩ := decodeWord_of_good_digits hop hgood
    obtain ⟨-, hmissing⟩ := parametersAreTheCellsAfterTheWord s w op ms hw hms
    exact hmissing p hp hend he

end Sys2Proof.Machine

/-! ## What an instruction that faults changes, and what a faulted machine does -/
namespace Sys2Proof.Machine

section
variable {s t : State}

theorem threeOperand_raises_or_keeps_latch {f : Int → Int → Int} {a b c : Param} (h : threeOperand f a b c s = .next t) :
    (∃ e, t = s.raise e) ∨ t.fault = s.fault := by
  obtain ⟨e, rfl⟩ | ⟨v, u, hw, rfl⟩ := threeOperand_raises_or_stores h
  · exact .inl ⟨e, rfl⟩
  · exact .inr (frame_writeParam hw).fault

theorem conditionalJump_raises_or_keeps_latch {taken : Int → Bool} {a b : Param} (h : conditionalJump taken a b s = .next t) :
    (∃ e, t = s.raise e) ∨ t.fault = s.fault := by
  obtain ⟨e, rfl⟩ | ⟨target, rfl⟩ := conditionalJump_raises_or_moves h
  · exact .inl ⟨e, rfl⟩
  · exact .inr rfl

theorem execOutput_raises_or_keeps_latch {a : Param} (h : execOutput a s = .next t) :
    (∃ e, t = s.raise e) ∨ t.fault = s.fault := by
  obtain ⟨e, -, rfl⟩ | ⟨va, -, rfl⟩ := execOutput_cases h
  · exact .inl ⟨e, rfl⟩
  · exact .inr rfl

/-- A default instruction other than IN takes a fault in the state it started in, or leaves the latch alone (decision D7). -/
theorem exec_raises_or_keeps_latch {i : Instr} (hi : i.op ≠ .input) (h : exec i s = .next t) :
    (∃ e, t = s.raise e) ∨ t.fault = s.fault := by
  cases i with
  | add a b c => exact threeOperand_raises_or_keeps_latch h
  | mul a b c => exact threeOperand_raises_or_keeps_latch h
  | lt a b c => exact threeOperand_raises_or_keeps_latch h
  | eq a b c => exact threeOperand_raises_or_keeps_latch h
  | jt a b => exact conditionalJump_raises_or_keeps_latch h
  | jf a b => exact conditionalJump_raises_or_keeps_latch h
  | output a => exact execOutput_raises_or_keeps_latch h
  | hlt => exact .inr (eq_halted_of_exec_hlt h ▸ rfl)
  | input a => exact absurd rfl hi

/-- IN takes a fault in the state that has lost the head of its queue, or leaves the latch alone (decision D8). -/
theorem execInput_raises_or_keeps_latch {a : Param} (h : execInput a s = .next t) :
    (∃ e v q, s.inQ = v :: q ∧ t = ({ s with inQ := q } : State).raise e) ∨ t.fault = s.fault := by
  obtain ⟨-, rfl⟩ | ⟨v, q, hq, ⟨e, -, rfl⟩ | ⟨u, hw, rfl⟩⟩ := execInput_cases h
  · exact .inr rfl
  · exact .inl ⟨e, v, q, hq, rfl⟩
  · exact .inr (frame_writeParam hw).fault

/-- Whatever an operation does, a latch that was set is set after it: its primitives leave the latch, and nothing that ends it
clears the latch (60_exceptions.md R111). -/
theorem Effect.fault_ne_none {n : Nat} (h : Effect n s t) (hs : s.fault ≠ none) : t.fault ≠ none := by
  cases h with
  | held => exact hs
  | raised u f hf ht => simp
  | signalled u sig hf => rwa [State.applySignal_fault, hf.fault]

/-- No step is enabled in a faulted machine (40_execution_cycle.md R59). -/
theorem enabled_of_fault (h : s.fault ≠ none) : s.enabled = false := by
  rw [← Bool.not_eq_true, enabled_iff]
  exact fun ⟨_, hnone⟩ => h hnone

end

/-- Settles O41: from a clear latch, an instruction that leaves it set has not left it alone. -/
theorem faultingInstructionChangesOnlyTheLatch : Obligations.FaultingInstructionChangesOnlyTheLatch := by
  intro i s t hs h ht
  have hne : t.fault ≠ s.fault := hs ▸ ht
  by_cases hi : i.op = .input
  · cases i with
    | input a =>
      obtain ⟨e, v, q, hq, rfl⟩ := (execInput_raises_or_keeps_latch h).resolve_right hne
      exact ⟨e, .inr ⟨rfl, v, q, hq, rfl⟩⟩
    | _ => cases hi
  · obtain ⟨e, rfl⟩ := (exec_raises_or_keeps_latch hi h).resolve_right hne
    exact ⟨e, .inl ⟨hi, rfl⟩⟩

/-- Settles O43: a faulted machine is not enabled, enters no run and has returned from any; no effect of an instruction clears
the latch, and a constructed machine has the latch of the reset one. -/
theorem faultIsFinal : Obligations.FaultIsFinal := by
  refine ⟨fun s hs => ?_, fun ov image s h => ?_⟩
  · have henter : s.runEnter = s := runEnter_of_fault hs
    have hreturned : s.hasReturned = true := (hasReturned_iff s).2 (.inr (.inr hs))
    exact ⟨step_of_not_enabled (enabled_of_fault hs), henter, runFor_of_hasReturned henter hreturned, fun vs => rfl,
      fun i t h => (exec_effect h).fault_ne_none hs⟩
  · obtain ⟨t, -, rfl⟩ := construct_eq_ok h
    rfl

end Sys2Proof.Machine

/-! PROOFS of the statements of 70_reset_and_hazards.md. -/

/-! ## The loader: digits, integers, and the tokens between commas -/
namespace Sys2Proof.Machine

section
variable {cs token text : List Char} {v : Int} {n : Nat}

theorem digitOfChar_eq_ite (c : Char) : digitOfChar c = if c.isDigit then some (c.toNat - 48) else none := by
  simp only [digitOfChar, Char.isDigit_iff_toNat]
  rfl

/-- `digit*` is read exactly where every character is a digit, and its value is the library's. -/
theorem parseDigits_eq_some_iff {acc : Nat} :
    parseDigits cs acc = some n ↔ (∀ c ∈ cs, c.isDigit) ∧ Nat.ofDigitChars 10 cs acc = n := by
  induction cs generalizing acc with
  | nil => simp [parseDigits]
  | cons c cs ih =>
    cases hc : c.isDigit with
    | false => simp [parseDigits, digitOfChar_eq_ite, hc]
    | true => simp [parseDigits, digitOfChar_eq_ite, hc, ih, Nat.ofDigitChars_cons]

/-- The same of `digit+` (R122). -/
theorem parseNatural_eq_some_iff :
    parseNatural cs = some n ↔ cs ≠ [] ∧ (∀ c ∈ cs, c.isDigit) ∧ Nat.ofDigitChars 10 cs 0 = n := by
  cases cs with
  | nil => simp [parseNatural]
  | cons c cs => rw [parseNatural, parseDigits_eq_some_iff, and_iff_right (List.cons_ne_nil c cs)]

theorem parseInteger_minus (cs : List Char) : parseInteger ('-' :: cs) = (parseNatural cs).map fun (n : Nat) => -(n : Int) := rfl

/-- A text of digits does not begin with a minus sign, so it is an integer with the same value. -/
theorem parseInteger_of_parseNatural (h : parseNatural cs = some n) : parseInteger cs = some (n : Int) := by
  obtain ⟨-, hdigits, -⟩ := parseNatural_eq_some_iff.1 h
  unfold parseInteger
  split
  · exact absurd (hdigits '-' (by simp)) (by decide)
  · rw [h, Option.map_some]

/-- The two forms of an integer (R122). -/
theorem parseInteger_eq_some_iff :
    parseInteger token = some v ↔ ∃ cs n, parseNatural cs = some n ∧
      (token = cs ∧ v = (n : Int) ∨ token = '-' :: cs ∧ v = -(n : Int)) := by
  constructor
  · intro h
    unfold parseInteger at h
    split at h
    · next cs =>
      obtain ⟨n, hn, rfl⟩ := Option.map_eq_some_iff.1 h
      exact ⟨cs, n, hn, .inr ⟨rfl, rfl⟩⟩
    · obtain ⟨n, hn, rfl⟩ := Option.map_eq_some_iff.1 h
      exact ⟨token, n, hn, .inl ⟨rfl, rfl⟩⟩
  · rintro ⟨cs, n, hn, ⟨rfl, rfl⟩ | ⟨rfl, rfl⟩⟩
    · exact parseInteger_of_parseNatural hn
    · rw [parseInteger_minus, hn, Option.map_some]

theorem digitChar_toNat_sub_of_isDigit {c : Char} (h : c.isDigit) :
    c.toNat - 48 < 10 ∧ (c.toNat - 48).digitChar = c := by
  obtain ⟨hlo, hhi⟩ : 48 ≤ c.toNat ∧ c.toNat ≤ 57 := Char.isDigit_iff_toNat.1 h
  have hlt : c.toNat - 48 < 10 := by omega
  refine ⟨hlt, Char.toNat_inj.1 ?_⟩
  rw [Nat.toNat_digitChar_of_lt_ten hlt]
  omega

/-- Characters that are digits are the digit characters of numbers below 10. -/
theorem exists_digits_of_isDigit (h : ∀ c ∈ cs, c.isDigit) :
    ∃ ds : List Nat, (∀ d ∈ ds, d < 10) ∧ cs = ds.map Nat.digitChar := by
  have hback : ∀ c ∈ cs, (Nat.digitChar ∘ fun c => c.toNat - 48) c = c :=
    fun c hc => (digitChar_toNat_sub_of_isDigit (h c hc)).2
  refine ⟨cs.map fun c => c.toNat - 48, ?_, ?_⟩
  · simpa using fun c hc => (digitChar_toNat_sub_of_isDigit (h c hc)).1
  · rw [List.map_map, List.map_congr_left hback, List.map_id']

theorem ofDigitChars_map_digitChar {ds : List Nat} {acc : Nat} (h : ∀ d ∈ ds, d < 10) :
    Nat.ofDigitChars 10 (ds.map Nat.digitChar) acc = ds.foldl (fun n d => 10 * n + d) acc := by
  induction ds generalizing acc with
  | nil => simp
  | cons d ds ih =>
    obtain ⟨hd, hds⟩ := List.forall_mem_cons.1 h
    rw [List.map_cons, Nat.ofDigitChars_cons_digitChar_of_lt_ten hd, ih hds, List.foldl_cons]

/-- The grammar of `digit+` and its value, in terms of the digits themselves (R122). -/
theorem parseNatural_eq_some_iff_digits :
    parseNatural cs = some n ↔ ∃ ds : List Nat, ds ≠ [] ∧ (∀ d ∈ ds, d < 10) ∧
      cs = ds.map Nat.digitChar ∧ n = ds.foldl (fun n d => 10 * n + d) 0 := by
  rw [parseNatural_eq_some_iff]
  constructor
  · rintro ⟨hne, hdigits, rfl⟩
    obtain ⟨ds, hlt, rfl⟩ := exists_digits_of_isDigit hdigits
    exact ⟨ds, by simpa using hne, hlt, rfl, ofDigitChars_map_digitChar hlt⟩
  · rintro ⟨ds, hne, hlt, rfl, rfl⟩
    refine ⟨by simpa using hne, ?_, ofDigitChars_map_digitChar hlt⟩
    simpa [Nat.isDigit_digitChar] using hlt

/-- The model's tokens are the library's split at commas. -/
theorem splitTokens_eq_splitOn (text : List Char) : splitTokens text = text.splitOn ',' := by
  induction text with
  | nil => rfl
  | cons c cs ih =>
    rw [splitTokens, List.splitOn_cons_eq_if_modifyHead, ih]
    by_cases hc : c = ','
    · simp [hc]
    · simp only [hc, beq_iff_eq, if_false]
      cases hs : cs.splitOn ',' with
      | nil => exact absurd hs (List.splitOn_ne_nil ',' cs)
      | cons t ts => rfl

theorem splitTokens_ne_nil (text : List Char) : splitTokens text ≠ [] := by
  rw [splitTokens_eq_splitOn]
  exact List.splitOn_ne_nil ',' text

theorem comma_not_mem_of_mem_splitTokens (h : token ∈ splitTokens text) : ',' ∉ token := by
  induction text generalizing token with
  | nil =>
    obtain rfl : token = [] := List.mem_singleton.1 h
    exact List.not_mem_nil
  | cons c cs ih =>
    rw [splitTokens] at h
    split at h
    · obtain rfl | h := List.mem_cons.1 h
      · exact List.not_mem_nil
      · exact ih h
    · next hc =>
      split at h
      · next t ts hs =>
        rw [hs] at ih
        obtain rfl | h := List.mem_cons.1 h
        · exact List.not_mem_cons_of_ne_of_not_mem (Ne.symm hc) (ih List.mem_cons_self)
        · exact ih (List.mem_cons_of_mem t h)
      · next hs => exact absurd hs (splitTokens_ne_nil cs)

/-- The tokens parse exactly when each is an integer, in their order. -/
theorem parseTokens_eq_ok_iff {k : Nat} {ts : List (List Char)} {vs : List Int} :
    parseTokens k ts = .ok vs ↔ ts.map parseInteger = vs.map some := by
  induction ts generalizing k vs with
  | nil => cases vs <;> simp [parseTokens]
  | cons t ts ih =>
    cases ht : parseInteger t with
    | none => cases vs <;> simp [parseTokens, ht]
    | some v =>
      have hmap : parseTokens k (t :: ts) = .ok vs ↔ ∃ us, parseTokens (k + 1) ts = .ok us ∧ v :: us = vs := by
        cases hts : parseTokens (k + 1) ts <;> simp [parseTokens, ht, hts, Except.map]
      simp only [hmap, ih]
      cases vs with
      | nil => simp
      | cons u us => simp [ht, and_comm]

/-- The first token that is no integer is reported with its index. -/
theorem parseTokens_first_bad {k : Nat} {pre post : List (List Char)} {bad : List Char}
    (hpre : ∀ t ∈ pre, (parseInteger t).isSome) (hbad : parseInteger bad = none) :
    parseTokens k (pre ++ bad :: post) = .error (.malformedProgram (k + pre.length)) := by
  induction pre generalizing k with
  | nil => simp [parseTokens, hbad]
  | cons t pre ih =>
    obtain ⟨ht, hpre⟩ := List.forall_mem_cons.1 hpre
    obtain ⟨v, hv⟩ := Option.isSome_iff_exists.1 ht
    rw [List.cons_append, parseTokens, hv]
    simp only [ih hpre, Except.map, List.length_cons]
    congr 2
    omega

end

/-- Settles O59: the first bad token and the parse of all good ones by induction on the tokens, the split by the library's, the
value of a token by induction on its digits. -/
theorem loaderReportsTheFirstBadToken : Obligations.LoaderReportsTheFirstBadToken := by
  intro text
  refine ⟨fun pre post bad hsplit hpre hbad => ?_, fun vs => parseTokens_eq_ok_iff, ⟨splitTokens_ne_nil text, ?_, ?_⟩,
    fun token v => ?_⟩
  · show parseTokens 0 (splitTokens text) = _
    rw [hsplit, parseTokens_first_bad hpre hbad, Nat.zero_add]
  · rw [splitTokens_eq_splitOn, List.intercalate_splitOn]
  · exact fun t => comma_not_mem_of_mem_splitTokens
  · rw [parseInteger_eq_some_iff]
    simp only [parseNatural_eq_some_iff_digits]
    constructor
    · rintro ⟨cs, n, ⟨ds, hne, hlt, rfl, rfl⟩, hform⟩
      exact ⟨ds, hne, hlt, hform⟩
    · rintro ⟨ds, hne, hlt, hform⟩
      exact ⟨_, _, ⟨ds, hne, hlt, rfl, rfl⟩, hform⟩

end Sys2Proof.Machine

/-! ## Reset -/
namespace Sys2Proof.Machine

section
variable {ov : List (Int × Operation)} {t : OpTable} {r : Refusal}

theorem construct_of_applyOverrides (h : applyOverrides defaultTable ov = .ok t) (image : List Int) :
    State.construct ov image = .ok ⟨image, 0, .uninitialized, none, [], [], t⟩ := by
  rw [State.construct, h]
  rfl

theorem construct_of_refused (h : applyOverrides defaultTable ov = .error r) (image : List Int) :
    State.construct ov image = .error r := by
  rw [State.construct, h]

theorem constructText_of_parseProgram {ws : Bool} {text : List Char} {image : List Int}
    (h : applyOverrides defaultTable ov = .ok t) (hp : parseProgram ws text = .ok image) :
    State.constructText ws ov text = .ok ⟨image, 0, .uninitialized, none, [], [], t⟩ := by
  simp only [State.constructText, construct_of_applyOverrides h, hp]

theorem constructText_of_malformed {ws : Bool} {text : List Char} {f : Fault}
    (h : applyOverrides defaultTable ov = .ok t) (hp : parseProgram ws text = .error f) :
    State.constructText ws ov text = .error (.program f) := by
  simp only [State.constructText, construct_of_applyOverrides h, hp]

theorem constructText_of_refused (h : applyOverrides defaultTable ov = .error r) (ws : Bool) (text : List Char) :
    State.constructText ws ov text = .error (.table r) := by
  simp only [State.constructText, construct_of_refused h]

/-- Overrides are applied in order (10_state.md R22): the rest of them to the table that accepted ones before have made. -/
theorem applyOverrides_append {pre : List (Int × Operation)} {t₀ : OpTable} (h : applyOverrides t₀ pre = .ok t)
    (rest : List (Int × Operation)) : applyOverrides t₀ (pre ++ rest) = applyOverrides t rest := by
  induction pre generalizing t₀ with
  | nil =>
    obtain rfl : t₀ = t := Except.ok.inj h
    rfl
  | cons e pre ih =>
    obtain ⟨o, op⟩ := e
    rw [applyOverrides] at h
    rw [List.cons_append, applyOverrides]
    split at h
    · next hop => rw [if_pos hop, ih h]
    · cases h

theorem wf_of_arity_gt_three {h : HostOp} (ha : 3 < h.arity) : (Operation.hosted h).wf = false := by
  simp [Operation.wf, HostOp.wf, Nat.not_le.2 ha]

end

/-- A constructed machine waits, unfaulted, for its first run (70_reset_and_hazards.md R120, R125). -/
theorem construct_waits {ov : List (Int × Operation)} {image : List Int} {s : State} (h : State.construct ov image = .ok s) :
    s.runState = .uninitialized ∧ s.fault = none := by
  obtain ⟨t, -, rfl⟩ := construct_eq_ok h
  exact ⟨rfl, rfl⟩

theorem enabled_of_uninitialized {s : State} (h : s.runState = .uninitialized) : s.enabled = false := by
  simp [State.enabled, h]

/-- Entering a run makes an unfaulted machine that waits for it ready to step (40_execution_cycle.md R73). -/
theorem runEnter_enabled_of_waiting {s : State} (hf : s.fault = none)
    (h : s.runState = .uninitialized ∨ s.runState = .suspended) :
    s.runEnter.enabled = true := by
  rw [runEnter_of_waiting hf h]
  exact (enabled_iff _).2 ⟨rfl, hf⟩

/-- Settles O55: reset follows the overrides, of which the first ill-formed one is refused; the machine it makes is uninitialized,
which input does not change, so it takes no step before a run. -/
theorem constructLoadsTheResetValues : Obligations.ConstructLoadsTheResetValues := by
  refine ⟨fun ov t image h => ⟨construct_of_applyOverrides h image, fun ws text => ?_⟩,
    fun pre post o op t image h => ⟨fun hop => ?_, fun hop => ?_⟩,
    fun ov r => constructText_of_refused, fun h => wf_of_arity_gt_three, fun ov image s h vs => ?_⟩
  · exact ⟨constructText_of_parseProgram h, fun f => constructText_of_malformed h⟩
  · apply construct_of_refused
    rw [applyOverrides_append h, applyOverrides, hop, if_neg Bool.false_ne_true]
  · rw [applyOverrides_append h, applyOverrides, if_pos hop]
  · obtain ⟨hwait, hnone⟩ := construct_waits h
    exact ⟨step_of_not_enabled (enabled_of_uninitialized hwait), runEnter_enabled_of_waiting hnone (.inl hwait)⟩

end Sys2Proof.Machine

/-! ## The serialisation and its round trip -/
namespace Sys2Proof.Machine

theorem charOfDigit_eq_digitChar {d : Nat} (h : d < 10) : charOfDigit d = d.digitChar := by
  interval_cases d <;> rfl

/-- Enough fuel gives the library's decimal digits. -/
theorem naturalDigits_eq_toDigits {fuel n : Nat} (h : n < fuel) (acc : List Char) :
    naturalDigits fuel n acc = Nat.toDigits 10 n ++ acc := by
  induction fuel generalizing n acc with
  | zero => exact absurd h (Nat.not_lt_zero n)
  | succ fuel ih =>
    rw [naturalDigits]
    split
    · next hn => rw [Nat.toDigits_of_lt_base hn, charOfDigit_eq_digitChar hn, List.singleton_append]
    · next hn =>
      have hmod : n % 10 < 10 := Nat.mod_lt n (by decide)
      rw [ih (by omega), Nat.toDigits_of_base_le (by decide) (Nat.le_of_not_lt hn), charOfDigit_eq_digitChar hmod,
        List.append_assoc, List.singleton_append]

theorem integerText_of_nonneg {v : Int} (h : 0 ≤ v) : integerText v = Nat.toDigits 10 v.natAbs := by
  rw [integerText, if_neg (not_lt.2 h), naturalDigits_eq_toDigits (Nat.lt_succ_self _), List.append_nil]

theorem integerText_of_neg {v : Int} (h : v < 0) : integerText v = '-' :: Nat.toDigits 10 v.natAbs := by
  rw [integerText, if_pos h, naturalDigits_eq_toDigits (Nat.lt_succ_self _), List.append_nil]

/-- A positive number has no leading zero. -/
theorem head?_toDigits_ne_zero {n : Nat} (h : 0 < n) : (Nat.toDigits 10 n).head? ≠ some '0' := by
  induction n using Nat.strongRecOn with
  | ind n ih =>
    by_cases hn : n < 10
    · simpa [Nat.toDigits_of_lt_base hn] using h.ne'
    · rw [Nat.toDigits_of_base_le (by decide) (Nat.le_of_not_lt hn), List.head?_append_of_ne_nil _ Nat.toDigits_ne_nil]
      exact ih (n / 10) (by omega) (by omega)

theorem parseNatural_toDigits (n : Nat) : parseNatural (Nat.toDigits 10 n) = some n :=
  parseNatural_eq_some_iff.2
    ⟨Nat.toDigits_ne_nil, fun _ hc => Nat.isDigit_of_mem_toDigits (by decide) (by decide) hc, Nat.ofDigitChars_ten_toDigits⟩

/-- The canonical decimal of an integer is a token that reads back as it (R123). -/
theorem parseInteger_integerText (v : Int) : parseInteger (integerText v) = some v := by
  by_cases h : v < 0
  · exact parseInteger_eq_some_iff.2 ⟨_, _, parseNatural_toDigits v.natAbs, .inr ⟨integerText_of_neg h, by omega⟩⟩
  · have h : 0 ≤ v := not_lt.1 h
    exact parseInteger_eq_some_iff.2 ⟨_, _, parseNatural_toDigits v.natAbs, .inl ⟨integerText_of_nonneg h, by omega⟩⟩

/-- A minus sign and digits are all that stands in a number, so neither a comma nor white space does. -/
theorem mem_integerText {v : Int} {c : Char} (h : c ∈ integerText v) : c = '-' ∨ c.isDigit := by
  have hdigit : c ∈ Nat.toDigits 10 v.natAbs → c.isDigit := Nat.isDigit_of_mem_toDigits (by decide) (by decide)
  by_cases hv : v < 0
  · rw [integerText_of_neg hv] at h
    exact (List.mem_cons.1 h).imp_right hdigit
  · rw [integerText_of_nonneg (not_lt.1 hv)] at h
    exact .inr (hdigit h)

theorem comma_not_mem_integerText (v : Int) : ',' ∉ integerText v :=
  fun h => absurd (mem_integerText h) (by decide)

theorem isTextSpace_of_isDigit {c : Char} (h : c.isDigit) : isTextSpace c = false := by
  have hne : ∀ d : Char, d.isDigit = false → c ≠ d := fun d hd hcd => by simp [← hcd, h] at hd
  simp [isTextSpace, hne ' ' rfl, hne '\t' rfl, hne '\r' rfl, hne '\n' rfl]

theorem isTextSpace_of_mem_integerText {v : Int} {c : Char} (h : c ∈ integerText v) : isTextSpace c = false := by
  obtain rfl | h := mem_integerText h
  · decide
  · exact isTextSpace_of_isDigit h

theorem serialise_eq_intercalate (tape : List Int) : serialise tape = [','].intercalate (tape.map integerText) := by
  fun_induction serialise tape with
  | case1 => rfl
  | case2 v => simp
  | case3 v w t ih => simp [ih]

theorem isTextSpace_of_mem_serialise {tape : List Int} {c : Char} (h : c ∈ serialise tape) : isTextSpace c = false := by
  fun_induction serialise tape with
  | case1 => cases h
  | case2 v => exact isTextSpace_of_mem_integerText h
  | case3 v w t ih =>
    obtain h | h := List.mem_append.1 h
    · exact isTextSpace_of_mem_integerText h
    · obtain rfl | h := List.mem_cons.1 h
      · decide
      · exact ih h

/-- Each number of a serialised tape is one token. -/
theorem splitTokens_serialise {tape : List Int} (h : tape ≠ []) : splitTokens (serialise tape) = tape.map integerText := by
  rw [splitTokens_eq_splitOn, serialise_eq_intercalate]
  apply List.splitOn_intercalate
  · simpa using fun v _ => comma_not_mem_integerText v
  · simpa using h

theorem dropWhile_isTextSpace_eq_self {cs : List Char} (h : ∀ c ∈ cs, isTextSpace c = false) :
    cs.dropWhile isTextSpace = cs := by
  rw [List.dropWhile_eq_self_iff]
  intro hl
  simp [h _ (List.getElem_mem hl)]

theorem stripSpace_eq_self {cs : List Char} (h : ∀ c ∈ cs, isTextSpace c = false) : stripSpace cs = cs := by
  have hrev : ∀ c ∈ cs.reverse, isTextSpace c = false := fun c hc => h c (List.mem_reverse.1 hc)
  rw [stripSpace, dropWhile_isTextSpace_eq_self h, dropWhile_isTextSpace_eq_self hrev, List.reverse_reverse]

/-- The loader sees in a serialised tape its numbers, for there is no white space to strip. -/
theorem parseProgram_serialise_eq_parseTokens {tape : List Int} (h : tape ≠ []) (ws : Bool) :
    parseProgram ws (serialise tape) = parseTokens 0 (tape.map integerText) := by
  cases ws with
  | false => rw [parseProgram, if_neg Bool.false_ne_true, splitTokens_serialise h]
  | true =>
    have htext : stripSpace (serialise tape) = serialise tape := stripSpace_eq_self fun _ => isTextSpace_of_mem_serialise
    have htoken : ∀ v ∈ tape, (stripSpace ∘ integerText) v = integerText v :=
      fun v _ => stripSpace_eq_self fun _ => isTextSpace_of_mem_integerText
    rw [parseProgram, if_pos rfl, htext, splitTokens_serialise h, List.map_map, List.map_congr_left htoken]

/-- Parsing undoes serialising (R123). -/
theorem parseProgram_serialise {tape : List Int} (h : tape ≠ []) (ws : Bool) : parseProgram ws (serialise tape) = .ok tape := by
  have hback : ∀ v ∈ tape, (parseInteger ∘ integerText) v = some v := fun v _ => parseInteger_integerText v
  rw [parseProgram_serialise_eq_parseTokens h, parseTokens_eq_ok_iff, List.map_map, List.map_congr_left hback]

/-- Settles O58: a number's text is the library's decimal digits, which read back as it; the split undoes the join by commas,
since no number holds one, and there is nothing to strip. -/
theorem serialisedTapeReadsBack : Obligations.SerialisedTapeReadsBack := by
  refine ⟨fun tape ws h => ⟨_, constructText_of_parseProgram rfl (parseProgram_serialise h ws), rfl⟩,
    ⟨rfl, fun v hv => ?_, fun v hv => ?_⟩, serialise_eq_intercalate, rfl⟩
  · rw [integerText_of_nonneg hv.le]
    exact head?_toDigits_ne_zero (Int.natAbs_pos.2 hv.ne')
  · rw [integerText_of_neg hv, integerText_of_nonneg (by omega), Int.natAbs_neg]

end Sys2Proof.Machine
